-- ==== Sys2Proof/Word.lean ====
section
/-! DEFINITION. The word types of the CORE (spec/00_scope.md R2, R3) and the plainest arithmetic on them. -/

namespace Sys2Proof

/-- One byte of a byte string or of data memory. -/
abbrev Byte := BitVec 8

/-- A ChaCha20 word: 32 bits (R2). -/
abbrev Word := BitVec 32

/-- A host register, a command word or a data-memory address: 64 bits (R3). -/
abbrev DWord := BitVec 64

/-- A ChaCha20 state or working state: 16 words (R2). -/
abbrev Block := Vector Word 16

/-- `add32` of R4: addition modulo 2^32. -/
def add32 (x y : Word) : Word := x + y

end Sys2Proof
end

