-- ==== Sys2Proof/Config.lean ====
section
/-! DEFINITION. What one CORE is built with (the open parameter MEM_BYTES) and the free values. -/

namespace Sys2Proof

/-- The parameters a CORE is built with; no step changes them. `memTop` is the address of the last byte of
data memory, MEM_BYTES - 1, so that every value of it meets `1 <= MEM_BYTES <= 2^64` (R3).
DESIGN CHOICE (log 3): held in the state, so that a claim about every state holds for every MEM_BYTES. Safe. -/
structure Config where
  memTop : DWord
deriving DecidableEq, Repr

/-- MEM_BYTES (R3). -/
def Config.memBytes (c : Config) : Nat := c.memTop.toNat + 1

/-- The free byte number `n`: an output byte of a command that reset abandoned (R221). It has no body:
nothing is known of its value (log 5). Safe. -/
opaque Config.draw : Nat → Byte

end Sys2Proof
end

