-- ==== Sys2Proof/Machine/State.lean ====
section
/-! DEFINITION. The state of the CORE, of the HOST beside it, and the state after reset (spec/10_state.md). -/

namespace Sys2Proof.Machine

/-- The error codes 1 to 9 of STATUS.ERR (spec/60_exceptions.md R191). Codes 10 to 255 are never written, so no
other value is in the type. -/
inductive CmdError where
  | invalidKey
  | invalidNonce
  | invalidEnvelope
  | messageTooLong
  | authFailed
  | invalidMacKey
  | badCommand
  | memFault
  | noContext
deriving DecidableEq, Repr

/-- The machine has no fault: "No error halts, hangs or resets the CORE" (R190), every error is a completion code
(R193). The type has no constructor. Safe. -/
inductive Fault where
deriving DecidableEq, Repr

/-- Why a step has no meaning: the UNPREDICTABLE cases the spec has a model refuse
(spec/93_implementation_defined.md section 2). -/
inductive Refusal where
  /-- Raised by an arm of `exec` that has no meaning yet; no arm is left with it. Safe. -/
  | notModelled (mnemonic : String)
  /-- Raised by a command about to write an output range that overlaps an input range in any way but
  DST_PTR = SRC_PTR, and by a reset that would abandon such a command (R57, log 6). Safe. -/
  | outputOverlapsInput
  /-- Raised by a HOST register access that is not an aligned 64-bit access of a whole slot (R22). Safe. -/
  | hostRegisterAccess
  /-- Raised by a HOST data access to an address at or above MEM_BYTES (R58). Safe. -/
  | hostMemoryRange
  /-- Raised by a HOST data access of a unit that is not 1 to 8 bytes (R58, log 8). Safe. -/
  | hostAccessSize
  /-- Raised by a HOST access, while BUSY, to a byte of a range of the latched command (R59, log 7). Safe. -/
  | hostTouchesOperand
deriving DecidableEq, Repr

/-- Data memory as a list of (address, byte), in the canonical form of `Memory.wf` (Machine/Memory.lean). -/
abbrev Memory := List Host.Cell

/-- The eleven operand registers, 64 bits each (R35). -/
structure OperandRegs where
  keyPtr : DWord
  keyLen : DWord
  noncePtr : DWord
  nonceLen : DWord
  srcPtr : DWord
  srcLen : DWord
  aadPtr : DWord
  aadLen : DWord
  auxPtr : DWord
  auxLen : DWord
  dstPtr : DWord
deriving DecidableEq, Repr

/-- The Poly1305 streaming context (R36), each field under the spec's own name. ACC is an integer: its
representation is free and not observable. -/
structure PolyCtx where
  pctx : Bool
  pr : BitVec 128
  ps : BitVec 128
  acc : Nat
  pb : Vector Byte 16
  pbl : Fin 16
deriving DecidableEq, Repr

/-- The scratch of R39 and R40. A command uses it within its own step only, and it is zero at the end of every
ENGINE step (R41); the values it takes inside a step are the local values of the command's meaning (log 9). -/
structure Scratch where
  s : Block
  w : Block
  ks : Vector Byte 64
  otk : Vector Byte 32
  pb17 : Vector Byte 17
  r : BitVec 128
  fin : BitVec 128
  a : Nat
deriving DecidableEq, Repr

/-- One action of the HOST (spec/30_encoding.md R80, spec/20_memory.md R58). Offsets and widths are in bytes. -/
inductive HostAction where
  /-- A register write (`wr`): any offset and width can be asked for; R22 says which are defined. -/
  | wr (offset width : Nat) (v : DWord)
  /-- A register read (`rd`). -/
  | rd (offset width : Nat)
  /-- A data write of `n` bytes, the little-endian value `v` (R58), of which the low `n` bytes count (log 8). -/
  | st (addr : DWord) (n : Nat) (v : DWord)
  /-- A data read of `n` bytes as a little-endian value (R58). -/
  | ld (addr : DWord) (n : Nat)
  /-- Byte writes at addr, addr+1, ... (`mw`). -/
  | mw (addr : DWord) (bytes : List Byte)
  /-- Byte reads of n bytes (`mr`). -/
  | mr (addr : DWord) (n : Nat)
  /-- Repeat `rd STATUS` until bit 0 of the value read is 0 (`wait`). -/
  | wait
deriving DecidableEq, Repr

/-- What happens outside the ENGINE: the HOST's next action (R81), or the platform's reset input (R220). -/
inductive Event where
  | host (a : HostAction)
  | reset
deriving DecidableEq, Repr

/-- What a HOST read returned. -/
inductive Seen where
  | reg (offset : Nat) (v : DWord)
  | word (addr : DWord) (v : DWord)
  | bytes (addr : DWord) (bs : List Byte)
deriving DecidableEq, Repr

/-- The outside of the CORE, as plain data (the model's own; logs 1 and 2). -/
structure Env where
  /-- What the outside still does, in order. -/
  agenda : List Event
  /-- The index of the HOST's next action (R21, R81). -/
  hostPos : Nat
  /-- What HOST reads returned, the newest first. -/
  seen : List Seen
  /-- How many events still land before the ENGINE takes its step. -/
  lag : Nat
  /-- The lags of the commands still to be issued; a command beyond the list has lag 0. -/
  pace : List Nat
deriving DecidableEq, Repr

/-- The whole machine. -/
structure State where
  cfg : Config
  mem : Memory
  opr : OperandRegs
  /-- REG.CTR bits 31:0; bits 63:32 read 0 (R34). -/
  ctr : Word
  /-- CTRL.IE (R33). -/
  ie : Bool
  /-- STATUS.BUSY (R26). -/
  busy : Bool
  /-- STATUS.DONE (R27). -/
  done : Bool
  /-- STATUS.RESULT (R28). -/
  result : Bool
  /-- STATUS.OVR (R29). -/
  ovr : Bool
  /-- STATUS.ERR (R30): `none` is code 0. -/
  err : Option CmdError
  /-- REG.OUT_LEN (R37). -/
  outLen : DWord
  /-- LATCH (R38). -/
  latch : DWord
  /-- The Poly1305 streaming context (R36). -/
  ctx : PolyCtx
  /-- The scratch (R39, R40). -/
  scratch : Scratch
  /-- How many free values were drawn so far (the model's own, log 5). -/
  draws : Nat
  env : Env
deriving DecidableEq, Repr

/-- MEM_BYTES of this CORE (R3). -/
def State.memBytes (s : State) : Nat := s.cfg.memBytes

/-- The operand registers at reset: 0 each (R45). -/
def OperandRegs.zero : OperandRegs := ⟨0, 0, 0, 0, 0, 0, 0, 0, 0, 0, 0⟩

/-- A vector of sixteen zero bytes. -/
def zeroBuf : Vector Byte 16 := .replicate 16 0

/-- The closed streaming context: everything 0 (R43, R45). -/
def PolyCtx.closed : PolyCtx := ⟨false, 0, 0, 0, zeroBuf, 0⟩

/-- All scratch zero (R41). -/
def Scratch.zero : Scratch :=
  ⟨.replicate 16 0, .replicate 16 0, .replicate 64 0, .replicate 32 0, .replicate 17 0, 0, 0, 0⟩

/-- An outside that does nothing. -/
def Env.idle : Env := ⟨[], 0, [], 0, []⟩

/-- The CORE right after reset (R45): everything 0 but CTR = 1. DESIGN CHOICE: MEM_BYTES = 0x10000 (log 3), no
byte of memory listed (log 4), nothing drawn (log 5), an outside that does nothing (logs 1, 2). -/
def State.reset : State where
  cfg := ⟨0xFFFF⟩
  mem := []
  opr := .zero
  ctr := 1
  ie := false
  busy := false
  done := false
  result := false
  ovr := false
  err := none
  outLen := 0
  latch := 0
  ctx := .closed
  scratch := .zero
  draws := 0
  env := .idle

end Sys2Proof.Machine
end

