-- ==== Sys2Proof/Machine/Flags.lean ====
section
/-! DEFINITION. STATUS, CTRL and irq (spec/10_state.md R25 to R33, spec/60_exceptions.md R191, R198). -/

namespace Sys2Proof.Machine

/-- The numeric code of an error (R191). -/
def CmdError.code : CmdError → BitVec 8
  | .invalidKey => 1
  | .invalidNonce => 2
  | .invalidEnvelope => 3
  | .messageTooLong => 4
  | .authFailed => 5
  | .invalidMacKey => 6
  | .badCommand => 7
  | .memFault => 8
  | .noContext => 9

/-- The value of STATUS.ERR (R30): 0 when the command succeeded. -/
def errCode : Option CmdError → BitVec 8
  | none => 0
  | some e => e.code

/-- The value a HOST read of REG.STATUS returns (R25): reserved bits 0, PCTX the current flag (R31). -/
def State.statusWord (s : State) : DWord :=
  (0 : BitVec 48) ++ errCode s.err ++ (0 : BitVec 3) ++ BitVec.ofBool s.ctx.pctx ++ BitVec.ofBool s.ovr
    ++ BitVec.ofBool s.result ++ BitVec.ofBool s.done ++ BitVec.ofBool s.busy

/-- A HOST write of REG.STATUS (R32): bit 1 clears DONE, bit 3 clears OVR, nothing else happens. -/
def State.clearStatus (s : State) (v : DWord) : State :=
  { s with done := s.done && !v.getLsbD 1, ovr := s.ovr && !v.getLsbD 3 }

/-- The value a HOST read of REG.CTRL returns (R33). -/
def State.ctrlWord (s : State) : DWord := (BitVec.ofBool s.ie).setWidth 64

/-- A HOST write of REG.CTRL: bit 0 is IE, the rest is ignored (R33). -/
def State.writeCtrl (s : State) (v : DWord) : State := { s with ie := v.getLsbD 0 }

/-- The interrupt output (R198). -/
def State.irq (s : State) : Bool := s.done && s.ie

end Sys2Proof.Machine
end

