-- ==== Sys2Proof/Machine/Bytes.lean ====
section
/-! DEFINITION. Byte strings and little-endian integers (spec/00_scope.md R5 to R8, spec/20_memory.md R51). -/

namespace Sys2Proof.Machine

/-- `rotl` of R5: left rotation, used with 0 < n < 32. PRESUMED (log 12): the formula is R5's, from general
knowledge. -/
def rotl (x : Word) (n : Nat) : Word := (x <<< n) ||| (x >>> (32 - n))

/-- `le` of R6: the little-endian integer of a byte string. -/
def le : List Byte → Nat
  | [] => 0
  | b :: bs => b.toNat + 256 * le bs

/-- `lebytes` of R7: the `n` little-endian bytes of `x`. R7 gives it for x < 2^(8n) only; of a larger `x` these are the
low `n` bytes, which only a HOST `st` can ask for (DESIGN CHOICE, log 8). -/
def leBytes (x : Nat) : Nat → List Byte
  | 0 => []
  | n + 1 => BitVec.ofNat 8 x :: leBytes (x / 256) n

/-- `B[i .. i+n)`. -/
def slice (bs : List Byte) (i n : Nat) : List Byte := (bs.drop i).take n

/-- `le32(B, k)` of R6: the k-th little-endian 32-bit word. -/
def le32 (bs : List Byte) (k : Nat) : Word := BitVec.ofNat 32 (le (slice bs (4 * k) 4))

/-- `ser` of R7: the 64 bytes of a 16-word vector. -/
def ser (w : Block) : List Byte := w.toList.flatMap fun x => leBytes x.toNat 4

/-- The 16 little-endian words of a 64-byte state operand (R100). -/
def loadBlock (bs : List Byte) : Block :=
  #v[le32 bs 0, le32 bs 1, le32 bs 2, le32 bs 3, le32 bs 4, le32 bs 5, le32 bs 6, le32 bs 7,
     le32 bs 8, le32 bs 9, le32 bs 10, le32 bs 11, le32 bs 12, le32 bs 13, le32 bs 14, le32 bs 15]

/-- `pad16` of R8, for a string of `n` bytes. -/
def pad16 (n : Nat) : List Byte := List.replicate ((16 - n % 16) % 16) 0

/-- `ceil64` of R8. -/
def ceil64 (n : Nat) : Nat := (n + 63) / 64

/-- Bytewise exclusive or, as long as the shorter operand (R120). -/
def xorBytes (a b : List Byte) : List Byte := List.zipWith (fun x y => x ^^^ y) a b

end Sys2Proof.Machine
end

