-- ==== Sys2Proof/Syntax.lean ====
section
/-! DEFINITION. The fifteen commands (spec/30_encoding.md R77) and the fields of a command word (R70). -/

namespace Sys2Proof

/-- One command of the CORE, one constructor per row of the opcode map (R77). Only CC.QR has operands in its
command word: four word indices, any of 0 to 15, not necessarily distinct (R75). -/
inductive Instr where
  | ccQr (a b c d : Fin 16)
  | ccDround
  | ccPerm
  | ccBlocks
  | ccBlock
  | ccOtk
  | ccXor
  | pInit
  | pAbsorb
  | pFinal
  | pTag
  | pVerify
  | aeSeal
  | aeOpen
  | ctEq
deriving DecidableEq, Repr

/-- The fields of a 64-bit command word (R70): OPC in bits 7:0, QA, QB, QC, QD in 11:8, 15:12, 19:16, 23:20,
RSV in 63:24. -/
structure CmdFields where
  opc : BitVec 8
  qa : BitVec 4
  qb : BitVec 4
  qc : BitVec 4
  qd : BitVec 4
  rsv : BitVec 40
deriving DecidableEq, Repr

/-- The OPC value of a command (R77). -/
def Instr.opc : Instr → BitVec 8
  | .ccQr _ _ _ _ => 0x01
  | .ccDround => 0x02
  | .ccPerm => 0x03
  | .ccBlocks => 0x04
  | .ccBlock => 0x05
  | .ccOtk => 0x06
  | .ccXor => 0x10
  | .pInit => 0x20
  | .pAbsorb => 0x21
  | .pFinal => 0x22
  | .pTag => 0x23
  | .pVerify => 0x24
  | .aeSeal => 0x30
  | .aeOpen => 0x31
  | .ctEq => 0x32

/-- The index fields of a command word (R70): CC.QR's operands; zero for every other command (R74). -/
def Instr.indices : Instr → BitVec 4 × BitVec 4 × BitVec 4 × BitVec 4
  | .ccQr a b c d => (BitVec.ofFin a, BitVec.ofFin b, BitVec.ofFin c, BitVec.ofFin d)
  | .ccDround | .ccPerm | .ccBlocks | .ccBlock | .ccOtk | .ccXor => (0, 0, 0, 0)
  | .pInit | .pAbsorb | .pFinal | .pTag | .pVerify => (0, 0, 0, 0)
  | .aeSeal | .aeOpen | .ctEq => (0, 0, 0, 0)

/-- The fields of a command's word (R70, R74, R77). -/
def Instr.fields (i : Instr) : CmdFields :=
  ⟨i.opc, i.indices.1, i.indices.2.1, i.indices.2.2.1, i.indices.2.2.2, 0⟩

end Sys2Proof
end

