-- ==== Sys2Proof/Machine/Operands.lean ====
section
/-! DEFINITION. Operand binding, range validity and the checks of a command (spec/30_encoding.md R76,
spec/20_memory.md R54, R57, spec/41_chacha_stream.md R121, spec/60_exceptions.md R194, R195). -/

namespace Sys2Proof.Machine

/-- Which operand a range belongs to. -/
inductive Operand where
  | key
  | nonce
  | src
  | aad
  | aux
  | dst
deriving DecidableEq, Repr

/-- A range of data memory: its operand, its first address and its length in bytes. -/
structure Range where
  who : Operand
  ptr : DWord
  len : Nat
deriving DecidableEq, Repr

/-- (KEY_PTR, 32) of R76. -/
def State.keyRange (s : State) : Range := ⟨.key, s.opr.keyPtr, 32⟩

/-- (NONCE_PTR, 12) of R76. -/
def State.nonceRange (s : State) : Range := ⟨.nonce, s.opr.noncePtr, 12⟩

/-- (SRC_PTR, 64) of R76: SRC_LEN is ignored by the state commands. -/
def State.stateRange (s : State) : Range := ⟨.src, s.opr.srcPtr, 64⟩

/-- (SRC_PTR, SRC_LEN) of R76. -/
def State.srcRange (s : State) : Range := ⟨.src, s.opr.srcPtr, s.opr.srcLen.toNat⟩

/-- (AAD_PTR, AAD_LEN) of R76. -/
def State.aadRange (s : State) : Range := ⟨.aad, s.opr.aadPtr, s.opr.aadLen.toNat⟩

/-- (AUX_PTR, AUX_LEN) of R76. -/
def State.auxRange (s : State) : Range := ⟨.aux, s.opr.auxPtr, s.opr.auxLen.toNat⟩

/-- The input ranges of a command (R76). -/
def State.inputs (s : State) : Instr → List Range
  | .ccQr _ _ _ _ => [s.stateRange]
  | .ccDround => [s.stateRange]
  | .ccPerm => [s.stateRange]
  | .ccBlocks => [s.stateRange]
  | .ccBlock => [s.keyRange, s.nonceRange]
  | .ccOtk => [s.keyRange, s.nonceRange]
  | .ccXor => [s.keyRange, s.nonceRange, s.srcRange]
  | .pInit => [s.keyRange]
  | .pAbsorb => [s.srcRange]
  | .pFinal => []
  | .pTag => [s.keyRange, s.srcRange]
  | .pVerify => [s.keyRange, s.srcRange, s.auxRange]
  | .aeSeal => [s.keyRange, s.nonceRange, s.srcRange, s.aadRange]
  | .aeOpen => [s.keyRange, s.nonceRange, s.srcRange, s.aadRange]
  | .ctEq => [s.srcRange, s.auxRange]

/-- How many bytes a command writes at DST_PTR on success (R76). -/
def State.outCount (s : State) : Instr → Nat
  | .ccQr _ _ _ _ => 64
  | .ccDround => 64
  | .ccPerm => 64
  | .ccBlocks => 64
  | .ccBlock => 64
  | .ccOtk => 32
  | .ccXor => s.opr.srcLen.toNat
  | .pInit => 0
  | .pAbsorb => 0
  | .pFinal => 16
  | .pTag => 16
  | .pVerify => 0
  | .aeSeal => s.opr.srcLen.toNat + 16
  | .aeOpen => s.opr.srcLen.toNat - 16
  | .ctEq => 0

/-- The output range of a command (R57, R76). -/
def State.output (s : State) (i : Instr) : Range := ⟨.dst, s.opr.dstPtr, s.outCount i⟩

/-- A range is valid when it is empty or ends within data memory, computed without wrap (R54). -/
def State.valid (s : State) (r : Range) : Bool := r.len == 0 || decide (r.ptr.toNat + r.len ≤ s.memBytes)

/-- The bytes of a range (R52). -/
def State.fetch (s : State) (r : Range) : List Byte := s.mem.readBytes r.ptr.toNat r.len

/-- The address lies in the range. -/
def Range.holds (r : Range) (a : Nat) : Bool := decide (r.ptr.toNat ≤ a ∧ a < r.ptr.toNat + r.len)

/-- Two ranges have a byte in common. -/
def Range.meets (x y : Range) : Bool :=
  decide (max x.ptr.toNat y.ptr.toNat < min (x.ptr.toNat + x.len) (y.ptr.toNat + y.len))

/-- The one overlap of output and input that is defined: with SRC, when DST_PTR = SRC_PTR (R57). -/
def Range.inPlace (out inp : Range) : Bool := decide (inp.who = .src ∧ inp.ptr = out.ptr)

/-- The output range overlaps an input range in a way R57 calls UNPREDICTABLE. -/
def State.badOverlap (s : State) (i : Instr) : Bool :=
  (s.inputs i).any fun r => (s.output i).meets r && !(s.output i).inPlace r

/-- invalid_key of R191. -/
def State.checkKey (s : State) : Option CmdError := if s.opr.keyLen = 32 then none else some .invalidKey

/-- invalid_mac_key of R191. -/
def State.checkMacKey (s : State) : Option CmdError := if s.opr.keyLen = 32 then none else some .invalidMacKey

/-- invalid_nonce of R191. -/
def State.checkNonce (s : State) : Option CmdError := if s.opr.nonceLen = 12 then none else some .invalidNonce

/-- invalid_envelope of R191. -/
def State.checkEnvelope (s : State) : Option CmdError :=
  if s.opr.srcLen.toNat < 16 then some .invalidEnvelope else none

/-- The maximum ChaCha20 message length (R2): 2^32 * 64 - 64 bytes. -/
def maxMessage : Nat := 274877906880

/-- message_too_long by the byte limit, R121 (1). -/
def checkLength (n : Nat) : Option CmdError := if maxMessage < n then some .messageTooLong else none

/-- message_too_long by the block counter, R121 (2). -/
def checkCounter (ctr : Word) (n : Nat) : Option CmdError :=
  if 2 ^ 32 - ctr.toNat < ceil64 n then some .messageTooLong else none

/-- no_context of R191. -/
def State.checkContext (s : State) : Option CmdError := if s.ctx.pctx then none else some .noContext

/-- mem_fault of R191: a range the command reads or writes is invalid. -/
def State.checkRanges (s : State) (i : Instr) : Option CmdError :=
  if (s.inputs i).all s.valid && s.valid (s.output i) then none else some .memFault

/-- The checks of a command before any work, in the order of R194 (R195). -/
def State.checks (s : State) : Instr → List (Option CmdError)
  | .ccQr a b c d => [s.checkRanges (.ccQr a b c d)]
  | .ccDround => [s.checkRanges .ccDround]
  | .ccPerm => [s.checkRanges .ccPerm]
  | .ccBlocks => [s.checkRanges .ccBlocks]
  | .ccBlock => [s.checkKey, s.checkNonce, s.checkRanges .ccBlock]
  | .ccOtk => [s.checkKey, s.checkNonce, s.checkRanges .ccOtk]
  | .ccXor => [s.checkKey, s.checkNonce, checkLength s.opr.srcLen.toNat, checkCounter s.ctr s.opr.srcLen.toNat,
      s.checkRanges .ccXor]
  | .pInit => [s.checkMacKey, s.checkRanges .pInit]
  | .pAbsorb => [s.checkContext, s.checkRanges .pAbsorb]
  | .pFinal => [s.checkContext, s.checkRanges .pFinal]
  | .pTag => [s.checkMacKey, s.checkRanges .pTag]
  | .pVerify => [s.checkMacKey, s.checkRanges .pVerify]
  | .aeSeal => [s.checkKey, s.checkNonce, checkLength s.opr.srcLen.toNat, s.checkRanges .aeSeal]
  | .aeOpen => [s.checkKey, s.checkNonce, s.checkEnvelope, checkLength (s.opr.srcLen.toNat - 16),
      s.checkRanges .aeOpen]
  | .ctEq => [s.checkRanges .ctEq]

/-- The first error of a list of checks; a later check does not matter once an earlier one fails (R194). -/
def firstError : List (Option CmdError) → Option CmdError
  | [] => none
  | none :: cs => firstError cs
  | some e :: _ => some e

/-- The input-validation error a command raises, if any (R194, R195). -/
def State.inputError (s : State) (i : Instr) : Option CmdError := firstError (s.checks i)

end Sys2Proof.Machine
end

