-- ==== Sys2Proof/Machine/Ops.lean ====
section
/-! DEFINITION. The two ends of a command, an error (spec/60_exceptions.md R193) and a success (R197), and the
shape every command shares: validate, then work, then write the output (spec/20_memory.md R54, R56, R57). The CORE
takes no exception and returns from none (R190, R200): `State.raise` is what it has in their place. -/

namespace Sys2Proof.Machine

/-- The outcome of a step. -/
abbrev StepResult := Host.Outcome State Fault Refusal

/-- `raise E()` of R193. -/
def State.raise (s : State) (e : CmdError) : State :=
  { s with err := some e, result := false, outLen := 0, busy := false, done := true, scratch := .zero }

/-- `Complete(out, result)` of R197. -/
def State.complete (s : State) (out : Nat) (result : Bool) : State :=
  { s with
    err := none, result := result, outLen := BitVec.ofNat 64 out, busy := false, done := true, scratch := .zero }

/-- `MemWrite(DST_PTR, |bs|, bs)` of R53. -/
def State.writeDst (s : State) (bs : List Byte) : State :=
  { s with mem := s.mem.writeBytes s.opr.dstPtr.toNat bs }

/-- Validation before work (R192, R194): the command raises its first error, or does its work. -/
def State.validated (s : State) (i : Instr) (work : State → StepResult) : StepResult :=
  match s.inputError i with
  | some e => .next (s.raise e)
  | none => work s

/-- A command that succeeds with `bs` as its output: the bytes at DST_PTR, then the completion. Where the output
would overlap an input range in a way R57 calls UNPREDICTABLE the model refuses (log 6). -/
def State.emit (s : State) (i : Instr) (bs : List Byte) (result : Bool) : StepResult :=
  if s.badOverlap i then .refused .outputOverlapsInput
  else .next ((s.writeDst bs).complete bs.length result)

/-- A command that succeeds and writes no output. -/
def State.answer (s : State) (result : Bool) : StepResult := .next (s.complete 0 result)

end Sys2Proof.Machine
end

