-- ==== Sys2Proof/Machine/ChachaBlock.lean ====
section
/-! DEFINITION. The ChaCha20 block function and its six commands (spec/40_chacha_block.md). -/

namespace Sys2Proof.Machine

/-- One line of R92: `x[a] <- x[a] + x[b]; x[d] <- rotl(x[d] ⊕ x[a], n)`, the second reading what the first wrote. -/
def quarterLine (x : Block) (a b d : Fin 16) (n : Nat) : Block :=
  let y := x.set a (add32 x[a] x[b])
  y.set d (rotl (y[d] ^^^ y[a]) n)

/-- `QR(x, a, b, c, d)` of R92: four lines of two assignments in order, each reading what the previous ones wrote. -/
def quarterRound (x : Block) (a b c d : Fin 16) : Block :=
  quarterLine (quarterLine (quarterLine (quarterLine x a b d 16) c d b 12) a b d 8) c d b 7

/-- The column round (R93). -/
def columnRound (x : Block) : Block :=
  quarterRound (quarterRound (quarterRound (quarterRound x 0 4 8 12) 1 5 9 13) 2 6 10 14) 3 7 11 15

/-- The diagonal round (R94). -/
def diagonalRound (x : Block) : Block :=
  quarterRound (quarterRound (quarterRound (quarterRound x 0 5 10 15) 1 6 11 12) 2 7 8 13) 3 4 9 14

/-- The double round (R96). -/
def doubleRound (x : Block) : Block := diagonalRound (columnRound x)

/-- `n` double rounds. -/
def doubleRounds : Nat → Block → Block
  | 0, x => x
  | n + 1, x => doubleRounds n (doubleRound x)

/-- The 20-round permutation (R96). -/
def perm20 (s : Block) : Block := doubleRounds 10 s

/-- The feed-forward (R97). -/
def feedForward (w s : Block) : Block := Vector.zipWith add32 w s

/-- The block function (R98). -/
def blockFn (s : Block) : List Byte := ser (feedForward (perm20 s) s)

/-- `init(K, ctr, N)` of R91, with the constants of R90. -/
def initBlock (k : List Byte) (ctr : Word) (n : List Byte) : Block :=
  #v[0x61707865, 0x3320646e, 0x79622d32, 0x6b206574,
     le32 k 0, le32 k 1, le32 k 2, le32 k 3, le32 k 4, le32 k 5, le32 k 6, le32 k 7,
     ctr, le32 n 0, le32 n 1, le32 n 2]

/-- The keyed block (R99). -/
def keyedBlock (k n : List Byte) (ctr : Word) : List Byte := blockFn (initBlock k ctr n)

/-- The one-time key (spec/43_aead.md R160). -/
def oneTimeKey (k n : List Byte) : List Byte := (keyedBlock k n 0).take 32

/-- CC.QR (R100). -/
def execCcQr (a b c d : Fin 16) (s : State) : StepResult :=
  s.validated (.ccQr a b c d) fun s =>
    s.emit (.ccQr a b c d) (ser (quarterRound (loadBlock (s.fetch s.stateRange)) a b c d)) false

/-- CC.DROUND (R101). -/
def execCcDround (s : State) : StepResult :=
  s.validated .ccDround fun s =>
    s.emit .ccDround (ser (doubleRound (loadBlock (s.fetch s.stateRange)))) false

/-- CC.PERM (R102). -/
def execCcPerm (s : State) : StepResult :=
  s.validated .ccPerm fun s =>
    s.emit .ccPerm (ser (perm20 (loadBlock (s.fetch s.stateRange)))) false

/-- CC.BLOCKS (R103). -/
def execCcBlocks (s : State) : StepResult :=
  s.validated .ccBlocks fun s =>
    s.emit .ccBlocks (blockFn (loadBlock (s.fetch s.stateRange))) false

/-- CC.BLOCK (R104). -/
def execCcBlock (s : State) : StepResult :=
  s.validated .ccBlock fun s =>
    s.emit .ccBlock (keyedBlock (s.fetch s.keyRange) (s.fetch s.nonceRange) s.ctr) false

/-- CC.OTK (R105): the counter is 0 whatever REG.CTR holds. -/
def execCcOtk (s : State) : StepResult :=
  s.validated .ccOtk fun s =>
    s.emit .ccOtk (oneTimeKey (s.fetch s.keyRange) (s.fetch s.nonceRange)) false

end Sys2Proof.Machine
end

