-- ==== Sys2Proof/Machine/ChachaStream.lean ====
section
/-! DEFINITION. The keystream XOR and its command (spec/41_chacha_stream.md). -/

namespace Sys2Proof.Machine

/-- The blocks of R120 from the block with counter `ctr` on: `n` of them. -/
def xcryptBlocks (k nonce : List Byte) : Nat → Nat → List Byte → List Byte
  | 0, _, _ => []
  | n + 1, ctr, d =>
    xorBytes (d.take 64) (keyedBlock k nonce (BitVec.ofNat 32 ctr)) ++ xcryptBlocks k nonce n (ctr + 1) (d.drop 64)

/-- `xcrypt(K, N, ctr, D)` of R120. R121 keeps every counter below 2^32. -/
def xcrypt (k nonce : List Byte) (ctr : Word) (d : List Byte) : List Byte :=
  xcryptBlocks k nonce (ceil64 d.length) ctr.toNat d

/-- CC.XOR (R122). REG.CTR is not changed. -/
def execCcXor (s : State) : StepResult :=
  s.validated .ccXor fun s =>
    s.emit .ccXor (xcrypt (s.fetch s.keyRange) (s.fetch s.nonceRange) s.ctr (s.fetch s.srcRange)) false

end Sys2Proof.Machine
end

