-- ==== Sys2Proof/Machine/Poly.lean ====
section
/-! DEFINITION. Poly1305, its streaming context, the comparison of byte strings, and five commands
(spec/42_poly1305.md; the comparison is spec/43_aead.md R164). -/

namespace Sys2Proof.Machine

/-- The prime 2^130 - 5 (R2). -/
def polyP : Nat := 2 ^ 130 - 5

/-- The clamp (R131). -/
def clamp (r : BitVec 128) : BitVec 128 := r &&& 0x0ffffffc0ffffffc0ffffffc0fffffff

/-- The clamped multiplier of a key (R130, R131). -/
def polyR (k : List Byte) : BitVec 128 := clamp (BitVec.ofNat 128 (le (slice k 0 16)))

/-- The finalizer of a key (R130). -/
def polyS (k : List Byte) : BitVec 128 := BitVec.ofNat 128 (le (slice k 16 16))

/-- The block integer of a full or partial block of at most 16 bytes (R132, R133): the bytes, the marker 0x01, zeros
up to 17 bytes. -/
def blockInt (m : List Byte) : Nat := le (m ++ (1 : Byte) :: List.replicate (16 - m.length) 0)

/-- One absorption step (R134). The sum and the product are exact integers (R137). -/
def absorbInt (r : BitVec 128) (a n : Nat) : Nat := (a + n) * r.toNat % polyP

/-- The tag of a reduced accumulator (R135). -/
def polyTag (a : Nat) (s : BitVec 128) : List Byte := leBytes ((a + s.toNat) % 2 ^ 128) 16

/-- Absorbs the first `n` 16-byte blocks of a message in order (R136). -/
def absorbBlocks (r : BitVec 128) : Nat → Nat → List Byte → Nat
  | 0, a, _ => a
  | n + 1, a, m => absorbBlocks r n (absorbInt r a (blockInt (m.take 16))) (m.drop 16)

/-- The accumulator after the whole message (R136): the full blocks, then a partial block if there is one. -/
def polyAcc (r : BitVec 128) (m : List Byte) : Nat :=
  let a := absorbBlocks r (m.length / 16) 0 m
  let rest := m.drop (16 * (m.length / 16))
  if rest.isEmpty then a else absorbInt r a (blockInt rest)

/-- One-shot Poly1305 (R136). -/
def poly1305 (k m : List Byte) : List Byte := polyTag (polyAcc (polyR k) m) (polyS k)

/-- The or of all byte differences, over the full length (R164). -/
def diffBytes (a b : List Byte) : Byte := (xorBytes a b).foldl (fun acc x => acc ||| x) 0

/-- `ct_eq(a, b)` of R164. -/
def ctEqual (a b : List Byte) : Bool := if a.length = b.length then diffBytes a b == 0 else false

/-- `verify(k, M, T)` of R138. -/
def polyVerify (k m t : List Byte) : Bool := ctEqual (poly1305 k m) t

/-- The context P.INIT opens (R139). -/
def PolyCtx.opened (k : List Byte) : PolyCtx := ⟨true, polyR k, polyS k, 0, zeroBuf, 0⟩

/-- One byte of P.ABSORB (R140): a block is absorbed as soon as its 16th byte arrives. -/
def PolyCtx.absorbByte (c : PolyCtx) (b : Byte) : PolyCtx :=
  let pb := c.pb.set c.pbl b
  if h : c.pbl.val + 1 < 16 then { c with pb := pb, pbl := ⟨c.pbl.val + 1, h⟩ }
  else { c with acc := absorbInt c.pr c.acc (blockInt pb.toList), pb := zeroBuf, pbl := 0 }

/-- P.ABSORB's loop over the bytes of the message (R140). -/
def PolyCtx.absorb (c : PolyCtx) (d : List Byte) : PolyCtx := d.foldl PolyCtx.absorbByte c

/-- The accumulator P.FINAL finishes with (R141). -/
def PolyCtx.finalAcc (c : PolyCtx) : Nat :=
  if c.pbl.val = 0 then c.acc else absorbInt c.pr c.acc (blockInt (c.pb.toList.take c.pbl.val))

/-- The tag P.FINAL writes (R141). -/
def PolyCtx.tag (c : PolyCtx) : List Byte := polyTag c.finalAcc c.ps

/-- P.INIT (R139). -/
def execPInit (s : State) : StepResult :=
  s.validated .pInit fun s =>
    State.answer { s with ctx := .opened (s.fetch s.keyRange) } false

/-- P.ABSORB (R140). -/
def execPAbsorb (s : State) : StepResult :=
  s.validated .pAbsorb fun s =>
    State.answer { s with ctx := s.ctx.absorb (s.fetch s.srcRange) } false

/-- P.FINAL (R141): the tag is that of the context before it is cleared. -/
def execPFinal (s : State) : StepResult :=
  s.validated .pFinal fun s =>
    State.emit { s with ctx := .closed } .pFinal s.ctx.tag false

/-- P.TAG (R142). The streaming context is not read or changed. -/
def execPTag (s : State) : StepResult :=
  s.validated .pTag fun s =>
    s.emit .pTag (poly1305 (s.fetch s.keyRange) (s.fetch s.srcRange)) false

/-- P.VERIFY (R143). A mismatch is no error. -/
def execPVerify (s : State) : StepResult :=
  s.validated .pVerify fun s =>
    s.answer (polyVerify (s.fetch s.keyRange) (s.fetch s.srcRange) (s.fetch s.auxRange))

end Sys2Proof.Machine
end

