-- ==== Sys2Proof/Machine/Aead.lean ====
section
/-! DEFINITION. The AEAD construction and its commands, and CT.EQ (spec/43_aead.md). -/

namespace Sys2Proof.Machine

/-- `macdata(A, C)` of R161. -/
def macData (aad c : List Byte) : List Byte :=
  aad ++ pad16 aad.length ++ c ++ pad16 c.length ++ leBytes aad.length 8 ++ leBytes c.length 8

/-- The tag of a ciphertext and its AAD (R162, R163). -/
def aeadTag (k n c aad : List Byte) : List Byte := poly1305 (oneTimeKey k n) (macData aad c)

/-- `seal(K, N, P, A)` of R162. -/
def sealBytes (k n p aad : List Byte) : List Byte :=
  let c := xcrypt k n 1 p
  c ++ aeadTag k n c aad

/-- `open(K, N, E, A)` of R163 for an envelope of at least 16 bytes: `none` is auth_failed. -/
def openBytes (k n e aad : List Byte) : Option (List Byte) :=
  let c := e.take (e.length - 16)
  let t := e.drop (e.length - 16)
  if ctEqual (aeadTag k n c aad) t then some (xcrypt k n 1 c) else none

/-- AE.SEAL (R165). REG.CTR is ignored. -/
def execAeSeal (s : State) : StepResult :=
  s.validated .aeSeal fun s =>
    s.emit .aeSeal
      (sealBytes (s.fetch s.keyRange) (s.fetch s.nonceRange) (s.fetch s.srcRange) (s.fetch s.aadRange)) false

/-- AE.OPEN (R166). On auth_failed nothing is written (R196). -/
def execAeOpen (s : State) : StepResult :=
  s.validated .aeOpen fun s =>
    match openBytes (s.fetch s.keyRange) (s.fetch s.nonceRange) (s.fetch s.srcRange) (s.fetch s.aadRange) with
    | none => .next (s.raise .authFailed)
    | some p => s.emit .aeOpen p true

/-- CT.EQ (R167). -/
def execCtEq (s : State) : StepResult :=
  s.validated .ctEq fun s => s.answer (ctEqual (s.fetch s.srcRange) (s.fetch s.auxRange))

end Sys2Proof.Machine
end

