-- ==== Sys2Proof/Machine/Dispatch.lean ====
section
/-! DEFINITION. The dispatch of a decoded command to its meaning (spec/30_encoding.md R73, R77). -/

namespace Sys2Proof.Machine

def exec (i : Instr) (s : State) : Host.Outcome State Fault Refusal :=
  match i with
  | .ccQr a b c d => Sys2Proof.Machine.execCcQr a b c d s
  | .ccDround => Sys2Proof.Machine.execCcDround s
  | .ccPerm => Sys2Proof.Machine.execCcPerm s
  | .ccBlocks => Sys2Proof.Machine.execCcBlocks s
  | .ccBlock => Sys2Proof.Machine.execCcBlock s
  | .ccOtk => Sys2Proof.Machine.execCcOtk s
  | .ccXor => Sys2Proof.Machine.execCcXor s
  | .pInit => Sys2Proof.Machine.execPInit s
  | .pAbsorb => Sys2Proof.Machine.execPAbsorb s
  | .pFinal => Sys2Proof.Machine.execPFinal s
  | .pTag => Sys2Proof.Machine.execPTag s
  | .pVerify => Sys2Proof.Machine.execPVerify s
  | .aeSeal => Sys2Proof.Machine.execAeSeal s
  | .aeOpen => Sys2Proof.Machine.execAeOpen s
  | .ctEq => Sys2Proof.Machine.execCtEq s

end Sys2Proof.Machine
end

