-- ==== Sys2Proof/WellFormed.lean ====
section
/-! DEFINITION. Which command words are legal (spec/30_encoding.md R73, R74, R77, R78), said on their fields. -/

namespace Sys2Proof

/-- The fifteen OPC values of R77. -/
def assignedOpcodes : List (BitVec 8) :=
  [0x01, 0x02, 0x03, 0x04, 0x05, 0x06, 0x10, 0x20, 0x21, 0x22, 0x23, 0x24, 0x30, 0x31, 0x32]

/-- First check of R73: the opcode is assigned. -/
def CmdFields.opcAssigned (f : CmdFields) : Bool := assignedOpcodes.contains f.opc

/-- Second check of R73: bits 63:24 are zero, for every command (R74). -/
def CmdFields.rsvZero (f : CmdFields) : Bool := f.rsv == 0

/-- Third check of R73: bits 23:8 are zero, for every command but CC.QR (R74). -/
def CmdFields.indicesAllowed (f : CmdFields) : Bool :=
  f.opc == 0x01 || (f.qa == 0 && f.qb == 0 && f.qc == 0 && f.qd == 0)

/-- A legal command word (R73). -/
def CmdFields.wellFormed (f : CmdFields) : Bool := f.opcAssigned && f.rsvZero && f.indicesAllowed

/-- A command is well formed when its word is legal. Every term of `Instr` is (the bound of an index is in its
type); `Sys2Proof.Laws.LegalWord` proves it for each constructor. -/
def Instr.wellFormed (i : Instr) : Bool := i.fields.wellFormed

end Sys2Proof
end

