-- ==== Sys2Proof/Decode.lean ====
section
/-! DEFINITION. Decoding a command word (spec/30_encoding.md R73) and encoding a command (R70, R75, R77). -/

namespace Sys2Proof

/-- Why a command word is illegal (R78). Both raise bad_command (R73). -/
inductive DecodeError where
  /-- OPC is none of the fifteen values of R77. -/
  | unassignedOpcode
  /-- A reserved bit of R74 is set. -/
  | reservedBitSet
deriving DecidableEq, Repr

/-- The fields of a command word (R70). -/
def cmdFields (w : DWord) : CmdFields where
  opc := w.extractLsb' 0 8
  qa := w.extractLsb' 8 4
  qb := w.extractLsb' 12 4
  qc := w.extractLsb' 16 4
  qd := w.extractLsb' 20 4
  rsv := w.extractLsb' 24 40

/-- The command of a legal opcode (R77). CC.QR's indices are zero-extended fields (R75). -/
def commandOf (f : CmdFields) : Option Instr :=
  match f.opc.toNat with
  | 0x01 => some (.ccQr f.qa.toFin f.qb.toFin f.qc.toFin f.qd.toFin)
  | 0x02 => some .ccDround
  | 0x03 => some .ccPerm
  | 0x04 => some .ccBlocks
  | 0x05 => some .ccBlock
  | 0x06 => some .ccOtk
  | 0x10 => some .ccXor
  | 0x20 => some .pInit
  | 0x21 => some .pAbsorb
  | 0x22 => some .pFinal
  | 0x23 => some .pTag
  | 0x24 => some .pVerify
  | 0x30 => some .aeSeal
  | 0x31 => some .aeOpen
  | 0x32 => some .ctEq
  | _ => none

/-- Decode of R73: total on every 64-bit word, an illegal word rejected by name. -/
def decode (w : DWord) : Except DecodeError Instr :=
  match commandOf (cmdFields w) with
  | none => .error .unassignedOpcode
  | some i => if (cmdFields w).wellFormed then .ok i else .error .reservedBitSet

/-- The word with given fields (R70). -/
def CmdFields.word (f : CmdFields) : DWord :=
  f.rsv ++ f.qd ++ f.qc ++ f.qb ++ f.qa ++ f.opc

/-- The command word of a command (R70, R77). -/
def encode (i : Instr) : DWord := i.fields.word

/-- What the decoder reads from an instruction whose bits are `w`, `nbits` of them given and the rest zero. The
command word is one 64-bit register write, so bit 0 of `w` is bit 0 of the word and no byte order arises. -/
def decodeTableWord (nbits w : Nat) : Option Instr :=
  (decode (BitVec.ofNat 64 (w % 2 ^ nbits))).toOption

/-- Match and mask of a command's row of the opcode map (R77). -/
def Instr.tableMatch (i : Instr) : DWord := i.opc.setWidth 64

/-- The mask of a command's row of the opcode map (R77). -/
def Instr.tableMask : Instr → DWord
  | .ccQr _ _ _ _ => 0xFFFFFFFFFF0000FF
  | .ccDround | .ccPerm | .ccBlocks | .ccBlock | .ccOtk | .ccXor => 0xFFFFFFFFFFFFFFFF
  | .pInit | .pAbsorb | .pFinal | .pTag | .pVerify => 0xFFFFFFFFFFFFFFFF
  | .aeSeal | .aeOpen | .ctEq => 0xFFFFFFFFFFFFFFFF

end Sys2Proof
end

