-- ==== Sys2Proof/Machine/HostPort.lean ====
section
/-! DEFINITION. The HOST's side of the CORE: the register bank (spec/10_state.md R22 to R37), command issue
(spec/30_encoding.md R71), data-memory accesses (spec/20_memory.md R58, R59) and HOST programs (R80, R81). -/

namespace Sys2Proof.Machine

/-- The eleven operand registers of R35. -/
inductive OperandReg where
  | keyPtr
  | keyLen
  | noncePtr
  | nonceLen
  | srcPtr
  | srcLen
  | aadPtr
  | aadLen
  | auxPtr
  | auxLen
  | dstPtr
deriving DecidableEq, Repr

/-- A slot of the register bank (R22). -/
inductive Slot where
  | cmd
  | status
  | ctrl
  | ctr
  | operand (r : OperandReg)
  | outLen
  | reserved
deriving DecidableEq, Repr

/-- The slot number of the map of R22: byte offset divided by 8. -/
def slotOfIndex : Nat → Slot
  | 0 => .cmd
  | 1 => .status
  | 2 => .ctrl
  | 3 => .ctr
  | 4 => .operand .keyPtr
  | 5 => .operand .keyLen
  | 6 => .operand .noncePtr
  | 7 => .operand .nonceLen
  | 8 => .operand .srcPtr
  | 9 => .operand .srcLen
  | 10 => .operand .aadPtr
  | 11 => .operand .aadLen
  | 12 => .operand .auxPtr
  | 13 => .operand .auxLen
  | 14 => .operand .dstPtr
  | 15 => .outLen
  | _ => .reserved

/-- The slot a register access reaches: an aligned access of 8 bytes inside the 256-byte bank. Any other access is
UNPREDICTABLE (R22). -/
def slotAt (offset width : Nat) : Option Slot :=
  if width = 8 ∧ offset % 8 = 0 ∧ offset < 256 then some (slotOfIndex (offset / 8)) else none

/-- Reads an operand register (R35). -/
def OperandRegs.get (o : OperandRegs) : OperandReg → DWord
  | .keyPtr => o.keyPtr
  | .keyLen => o.keyLen
  | .noncePtr => o.noncePtr
  | .nonceLen => o.nonceLen
  | .srcPtr => o.srcPtr
  | .srcLen => o.srcLen
  | .aadPtr => o.aadPtr
  | .aadLen => o.aadLen
  | .auxPtr => o.auxPtr
  | .auxLen => o.auxLen
  | .dstPtr => o.dstPtr

/-- Writes an operand register (R35). -/
def OperandRegs.put (o : OperandRegs) (r : OperandReg) (v : DWord) : OperandRegs :=
  match r with
  | .keyPtr => { o with keyPtr := v }
  | .keyLen => { o with keyLen := v }
  | .noncePtr => { o with noncePtr := v }
  | .nonceLen => { o with nonceLen := v }
  | .srcPtr => { o with srcPtr := v }
  | .srcLen => { o with srcLen := v }
  | .aadPtr => { o with aadPtr := v }
  | .aadLen => { o with aadLen := v }
  | .auxPtr => { o with auxPtr := v }
  | .auxLen => { o with auxLen := v }
  | .dstPtr => { o with dstPtr := v }

/-- A write of CMD, CTR or an operand register: dropped while BUSY, and OVR is then set (R29, R224). -/
def State.unlessBusy (s : State) (t : State) : State := if s.busy then { s with ovr := true } else t

/-- A write of REG.CMD (R24, R71): issue. Nothing is validated at issue. -/
def State.issue (s : State) (v : DWord) : State :=
  s.unlessBusy { s with latch := v, busy := true, done := false }

/-- The value a HOST read of a slot returns (R23, R24, R25, R33, R34, R35, R37). No read has a side effect (R60). -/
def State.readSlot (s : State) : Slot → DWord
  | .cmd => 0
  | .status => s.statusWord
  | .ctrl => s.ctrlWord
  | .ctr => s.ctr.setWidth 64
  | .operand r => s.opr.get r
  | .outLen => s.outLen
  | .reserved => 0

/-- A HOST write of a slot (R23, R24, R29, R32 to R35, R37). -/
def State.writeSlot (s : State) (v : DWord) : Slot → State
  | .cmd => s.issue v
  | .status => s.clearStatus v
  | .ctrl => s.writeCtrl v
  | .ctr => s.unlessBusy { s with ctr := v.setWidth 32 }
  | .operand r => s.unlessBusy { s with opr := s.opr.put r v }
  | .outLen => s
  | .reserved => s

/-- The ranges of the latched command (R59, R76); an illegal word has none. -/
def State.latchedRanges (s : State) : List Range :=
  match decode s.latch with
  | .ok i => s.output i :: s.inputs i
  | .error _ => []

/-- The address lies in a range of the latched command while BUSY = 1 (R59). -/
def State.operandByte (s : State) (a : Nat) : Bool := s.busy && s.latchedRanges.any fun r => r.holds a

/-- What is wrong with a HOST access to `n` bytes from `a` (R58, R59). -/
def State.hostRefusal (s : State) (a n : Nat) : Option Refusal :=
  if n ≠ 0 ∧ s.memBytes < a + n then some .hostMemoryRange
  else if (List.range n).any fun i => s.operandByte (a + i) then some .hostTouchesOperand
  else none

/-- A unit of R58: 1 to 8 bytes. -/
def unitSize (n : Nat) : Bool := decide (1 ≤ n ∧ n ≤ 8)

/-- The HOST's next action is done: its position advances by one (R81). -/
def State.advance (s : State) : State :=
  { s with env := { s.env with agenda := s.env.agenda.tail, hostPos := s.env.hostPos + 1 } }

/-- Notes what a HOST read returned. -/
def State.note (s : State) (x : Seen) : State := { s with env := { s.env with seen := x :: s.env.seen } }

/-- A HOST data access of `n` bytes from `a` that is allowed (R58, R59), or its refusal. -/
def State.hostAccess (s : State) (a n : Nat) (t : State) : StepResult :=
  match s.hostRefusal a n with
  | some r => .refused r
  | none => .next t

/-- A HOST data access in a unit of 1 to 8 bytes (R58). -/
def State.hostUnit (s : State) (a n : Nat) (t : State) : StepResult :=
  if unitSize n then s.hostAccess a n t else .refused .hostAccessSize

/-- One action of the HOST (R80, R81). DESIGN CHOICE (log 8): an `st` of `n` bytes whose value does not fit them writes
its low `n` bytes. DESIGN CHOICE (log 1): `wait` stays the next of all events until it reads BUSY = 0, so no reset lands
between two polls of one `wait`. -/
def State.hostAct (s : State) : HostAction → StepResult
  | .wr offset width v =>
    match slotAt offset width with
    | none => .refused .hostRegisterAccess
    | some r => .next (s.writeSlot v r).advance
  | .rd offset width =>
    match slotAt offset width with
    | none => .refused .hostRegisterAccess
    | some r => .next (s.note (.reg offset (s.readSlot r))).advance
  | .st addr n v =>
    s.hostUnit addr.toNat n (State.advance { s with mem := s.mem.writeBytes addr.toNat (leBytes v.toNat n) })
  | .ld addr n =>
    s.hostUnit addr.toNat n
      (s.note (.word addr (BitVec.ofNat 64 (le (s.mem.readBytes addr.toNat n))))).advance
  | .mw addr bs =>
    s.hostAccess addr.toNat bs.length (State.advance { s with mem := s.mem.writeBytes addr.toNat bs })
  | .mr addr n =>
    s.hostAccess addr.toNat n (s.note (.bytes addr (s.mem.readBytes addr.toNat n))).advance
  | .wait =>
    let t := s.note (.reg 8 s.statusWord)
    if s.statusWord.getLsbD 0 then .next t else .next t.advance

/-- The offset of a slot of R22 (a reserved slot by its first). -/
def Slot.offset : Slot → Nat
  | .cmd => 0x00
  | .status => 0x08
  | .ctrl => 0x10
  | .ctr => 0x18
  | .operand .keyPtr => 0x20
  | .operand .keyLen => 0x28
  | .operand .noncePtr => 0x30
  | .operand .nonceLen => 0x38
  | .operand .srcPtr => 0x40
  | .operand .srcLen => 0x48
  | .operand .aadPtr => 0x50
  | .operand .aadLen => 0x58
  | .operand .auxPtr => 0x60
  | .operand .auxLen => 0x68
  | .operand .dstPtr => 0x70
  | .outLen => 0x78
  | .reserved => 0x80

/-- `wr NAME, v` (R80). -/
def hostWr (r : Slot) (v : DWord) : Event := .host (.wr r.offset 8 v)

/-- `rd NAME` (R80). -/
def hostRd (r : Slot) : Event := .host (.rd r.offset 8)

/-- `cmd M` (R80). -/
def hostCmd (i : Instr) : Event := hostWr .cmd (encode i)

/-- `run M` (R80): `cmd M`, then `wait`. -/
def hostRun (i : Instr) : List Event := [hostCmd i, .host .wait]

/-- `ack` (R80): clears DONE and OVR. -/
def hostAck : List Event := [hostWr .status 0x0A]

/-- `setkey p` (R80). -/
def hostSetKey (p : DWord) : List Event := [hostWr (.operand .keyPtr) p, hostWr (.operand .keyLen) 32]

/-- `setnonce p` (R80). -/
def hostSetNonce (p : DWord) : List Event := [hostWr (.operand .noncePtr) p, hostWr (.operand .nonceLen) 12]

end Sys2Proof.Machine
end

