-- ==== Sys2Proof/Machine/ResetInput.lean ====
section
/-! DEFINITION. The reset input (spec/70_reset_and_hazards.md R220, R221). -/

namespace Sys2Proof.Machine

/-- `n` free bytes, from free value number `k` on. -/
def drawBytes (k : Nat) : Nat → List Byte
  | 0 => []
  | n + 1 => Config.draw k :: drawBytes (k + 1) n

/-- How many existing bytes the output range of the abandoned command has (R221): those of the latched command's
output range below MEM_BYTES while BUSY = 1 (log 5). -/
def State.abandonedCount (s : State) : Nat :=
  if s.busy then
    match decode s.latch with
    | .ok i => min (s.outCount i) (s.memBytes - s.opr.dstPtr.toNat)
    | .error _ => 0
  else 0

/-- Reset (R220): every register, the latch, the streaming context and the scratch as in R45. Data memory is not
changed but for the output range of an abandoned command, each byte of which is a free value (R221). The outside of
the CORE is not reset (log 2). A latched command that R57 refuses is not abandoned: see
`State.resetRefusal`. -/
def State.resetInput (s : State) : State :=
  { State.reset with
    cfg := s.cfg
    mem := s.mem.writeBytes s.opr.dstPtr.toNat (drawBytes s.draws s.abandonedCount)
    draws := s.draws + s.abandonedCount
    env := s.env }

end Sys2Proof.Machine
end

