-- ==== Sys2Proof/Machine/Engine.lean ====
section
/-! DEFINITION. The ENGINE's step (spec/30_encoding.md R72, R73), an event from outside, and whose turn it is. -/

namespace Sys2Proof.Machine

/-- The ENGINE's step: decode LATCH, then the command's meaning, or bad_command (R72, R73). -/
def State.engineStep (s : State) : StepResult :=
  match decode s.latch with
  | .ok i => exec i s
  | .error _ => .next (s.raise .badCommand)

/-- The ENGINE moves now: it is enabled (R72) and no event lands before it (log 1). It always does in the end,
which is R237's fairness. -/
def State.engineTurn (s : State) : Bool := s.busy && (s.env.lag == 0 || s.env.agenda.isEmpty)

/-- After an event from outside, from `s` to `t`: an accepted issue takes the lag of its command from the pace, and
any other event brings the ENGINE's turn one nearer. -/
def State.settle (s t : State) : State :=
  if !s.busy && t.busy then
    { t with env := { t.env with lag := s.env.pace.headD 0, pace := s.env.pace.tail } }
  else { t with env := { t.env with lag := s.env.lag - 1 } }

/-- Why a reset is refused: R57 has a model refuse the program that issues a command whose output overlaps an input in
an UNPREDICTABLE way, and a reset before that command's step does not undo its issue. The command is the one whose step
would be refused (log 6). -/
def State.resetRefusal (s : State) : Option Refusal :=
  if s.busy then
    match s.engineStep with
    | .next _ => none
    | .fault _ => none
    | .refused r => some r
  else none

/-- An event from outside lands (R81, R220). -/
def State.land (s : State) : Event → StepResult
  | .host a =>
    match s.hostAct a with
    | .next t => .next (s.settle t)
    | .fault r => .fault r
    | .refused r => .refused r
  | .reset =>
    match s.resetRefusal with
    | some r => .refused r
    | none => .next (s.settle { s.resetInput with env := { s.env with agenda := s.env.agenda.tail } })

/-- No ENGINE step is due: the next event lands; when the outside has ended the run is over and the idle CORE keeps
its state (R81, R206). -/
def State.outsideStep (s : State) : StepResult :=
  match s.env.agenda with
  | [] => .next s
  | e :: _ => s.land e

/-- The command word `w`, of which `nbits` bits are given and the rest are zero, accepted as R71 says, the ENGINE's
turn next. -/
def State.latched (s : State) (nbits w : Nat) : State :=
  { s with
    latch := BitVec.ofNat 64 (w % 2 ^ nbits), busy := true, done := false, env := { s.env with lag := 0 } }

end Sys2Proof.Machine
end

