-- ==== Sys2Proof/Machine/Step.lean ====
section
/-! DEFINITION. One step of the whole machine, and the state whose next step runs a given command word. -/

namespace Sys2Proof.Machine

/-- One step: the ENGINE's when it is its turn, the next event from outside otherwise (spec/10_state.md R20). -/
def step (s : State) : Host.Outcome State Fault Refusal :=
  if s.engineTurn then s.engineStep else s.outsideStep

/-- `s` with the command word latched where the ENGINE decodes its next command (R71, R73). The CORE fetches no
instruction (R65): this stands for the HOST's accepted write of REG.CMD (log 2). -/
def State.withFetchWord (s : State) (nbits w : Nat) : State := s.latched nbits w

end Sys2Proof.Machine
end

