-- ==== Sys2Proof/Safety.lean ====
section
/-! DEFINITION. The terms claims use: ranges, what one command leaves behind, and what holds between steps. -/

namespace Sys2Proof.Machine

/-- A valid range, in exact arithmetic (spec/20_memory.md R54). -/
def Fits (s : State) (ptr : DWord) (n : Nat) : Prop := n = 0 ∨ ptr.toNat + n ≤ s.memBytes

/-- Two ranges have no byte in common. -/
def Apart (p : DWord) (m : Nat) (q : DWord) (n : Nat) : Prop :=
  ∀ a, ¬(p.toNat ≤ a ∧ a < p.toNat + m ∧ q.toNat ≤ a ∧ a < q.toNat + n)

/-- The `n` bytes of data memory from a pointer on (R52). -/
def bytesAt (s : State) (p : DWord) (n : Nat) : List Byte := s.mem.readBytes p.toNat n

/-- The little-endian 32-bit word at an address (R51). -/
def wordAt (s : State) (a : Nat) : Word := BitVec.ofNat 32 (le (s.mem.readBytes a 4))

/-- What the ENGINE never writes: the operand registers (R35), REG.CTR (R34), CTRL, OVR, LATCH (R38), MEM_BYTES, the
draws, and everything outside the CORE. -/
def SameRegs (s t : State) : Prop :=
  t.opr = s.opr ∧ t.ctr = s.ctr ∧ t.ie = s.ie ∧ t.ovr = s.ovr ∧ t.latch = s.latch ∧ t.cfg = s.cfg ∧
    t.draws = s.draws ∧ t.env = s.env

/-- The end of a command (R193, R197): BUSY 0, DONE 1, the scratch zero (R41), the given error, RESULT and OUT_LEN;
the registers the ENGINE never writes are unchanged. -/
def Ended (s t : State) (err : Option CmdError) (result : Bool) (out : Nat) : Prop :=
  t.busy = false ∧ t.done = true ∧ t.err = err ∧ t.result = result ∧ t.outLen.toNat = out ∧
    t.scratch = Scratch.zero ∧ SameRegs s t

/-- Every byte of data memory reads as before. -/
def SameMem (s t : State) : Prop := ∀ a, t.mem.read a = s.mem.read a

/-- An error: no byte of memory is written and the context is as it was (R193). -/
def Raised (s t : State) (e : CmdError) : Prop := Ended s t (some e) false 0 ∧ SameMem s t ∧ t.ctx = s.ctx

/-- The bytes at DST_PTR are `bs` and every byte outside reads as before (R53, R57). -/
def Wrote (s t : State) (bs : List Byte) : Prop :=
  (∀ j, (h : j < bs.length) → t.mem.read (s.opr.dstPtr.toNat + j) = bs[j]) ∧
    ∀ a, ¬(s.opr.dstPtr.toNat ≤ a ∧ a < s.opr.dstPtr.toNat + bs.length) → t.mem.read a = s.mem.read a

/-- The key operand is legal: KEY_LEN = 32 and the range is valid. -/
def KeyOk (s : State) : Prop := s.opr.keyLen = 32 ∧ Fits s s.opr.keyPtr 32

/-- The nonce operand is legal: NONCE_LEN = 12 and the range is valid. -/
def NonceOk (s : State) : Prop := s.opr.nonceLen = 12 ∧ Fits s s.opr.noncePtr 12

/-- The `n` output bytes are apart from the key and the nonce (R57). -/
def OutApartFromKeys (s : State) (n : Nat) : Prop :=
  Apart s.opr.dstPtr n s.opr.keyPtr 32 ∧ Apart s.opr.dstPtr n s.opr.noncePtr 12

/-- The `n` output bytes lie in place of SRC or apart from its `m` bytes (R57). -/
def OutInPlaceOrApart (s : State) (n m : Nat) : Prop :=
  s.opr.dstPtr = s.opr.srcPtr ∨ Apart s.opr.dstPtr n s.opr.srcPtr m

/-- The ENGINE takes the next step: BUSY = 1 and no event lands before it (R72, log 1). -/
def EngineMoves (s : State) : Prop := s.busy = true ∧ (s.env.lag = 0 ∨ s.env.agenda = [])

/-- The event `e` from outside lands next, before `rest` (R81, R220). -/
def Lands (s : State) (e : Event) (rest : List Event) : Prop :=
  s.env.agenda = e :: rest ∧ (s.busy = false ∨ s.env.lag ≠ 0)

/-- Some event of a kind lands next. -/
def LandsNext (s : State) (e : Event) : Prop := ∃ rest, Lands s e rest

/-- One HOST action is done: the rest is still to do, the position is one more, `new` is what it read (R81). -/
def HostActed (s t : State) (rest : List Event) (new : List Seen) : Prop :=
  t.env.agenda = rest ∧ t.env.hostPos = s.env.hostPos + 1 ∧ t.env.seen = new ++ s.env.seen

/-- A HOST data access of `n` bytes touches no byte of a range of the latched command while BUSY = 1 (R59). -/
def ClearOfCommand (s : State) (p : DWord) (n : Nat) : Prop :=
  s.busy = true → ∀ i, decode s.latch = .ok i → ∀ r ∈ s.output i :: s.inputs i, Apart p n r.ptr r.len

/-- A run of P.ABSORBs on one context: from `c`, absorbing `m`, to `d`. Between two of them the HOST may change
anything but the context. -/
inductive AbsorbRun : PolyCtx → List Byte → PolyCtx → Prop where
  | none (c : PolyCtx) : AbsorbRun c [] c
  | more {s t : State} {m : List Byte} {d : PolyCtx} (h : exec .pAbsorb s = .next t) (he : t.err = .none)
      (hr : AbsorbRun t.ctx m d) : AbsorbRun s.ctx (bytesAt s s.opr.srcPtr s.opr.srcLen.toNat ++ m) d

/-- The invariant of the streaming context (spec/10_state.md R43). -/
def ctxInv (c : PolyCtx) : Prop :=
  (c.pctx = false → c = PolyCtx.closed) ∧
  (c.pctx = true → c.acc < polyP ∧ (∀ j : Fin 16, c.pbl.val ≤ j.val → c.pb[j] = 0) ∧ clamp c.pr = c.pr)

/-- Data memory is in its canonical form and lists no address that does not exist (R50). -/
def memInv (s : State) : Prop := s.mem.wf ∧ s.mem.within s.memBytes

/-- What holds between steps: memory, the context (R43), and zero scratch (R41). -/
def State.Inv (s : State) : Prop := memInv s ∧ ctxInv s.ctx ∧ s.scratch = Scratch.zero

end Sys2Proof.Machine
end

