-- ==== Sys2Proof/Certificates/Slice0/Obligations.lean ====
section
/-! DEFINITION. The statements about the CORE, from the numbered rules of spec/. -/

open Sys2Proof Sys2Proof.Machine

/-! ## Encoding and decode -/

/-- Words of spec/95_test_vectors.md section 2.1 decode to the commands they stand for, one of each family at least,
and illegal words are rejected. -/
def Obligations.DecodeGivesTheWordsOfTheMap : Prop :=
  decode 0x0000000000C84001 = .ok (.ccQr 0 4 8 12) ∧ decode 0x0000000000D87201 = .ok (.ccQr 2 7 8 13) ∧
  decode 0x0000000000000005 = .ok .ccBlock ∧ decode 0x0000000000000010 = .ok .ccXor ∧
  decode 0x0000000000000022 = .ok .pFinal ∧ decode 0x0000000000000024 = .ok .pVerify ∧
  decode 0x0000000000000031 = .ok .aeOpen ∧ decode 0x0000000000000032 = .ok .ctEq ∧
  decode 0x0000000001321001 = .error .reservedBitSet ∧ decode 0x0000000000000105 = .error .reservedBitSet ∧
  decode 0x0000000000000000 = .error .unassignedOpcode

/-- Every command is well formed and its word decodes to it with all its operands, and a word that decodes to a command
is that command's word: decode and encode agree in both directions (R70, R73, R77). -/
def Obligations.DecodeAndEncodeAgree : Prop :=
  (∀ i : Instr, i.wellFormed = true ∧ decode (encode i) = .ok i) ∧
  ∀ (w : DWord) (i : Instr), decode w = .ok i → encode i = w

/-- R75: CC.QR's four indices are bits 11:8, 15:12, 19:16 and 23:20 of the word; every value of each field is legal,
distinct or not; no other command has an operand in its word. -/
def Obligations.CcQrIndicesAreTheFourNibbles : Prop :=
  (∀ (w : DWord) (a b c d : Fin 16), decode w = .ok (.ccQr a b c d) →
    a.val = w.toNat / 2 ^ 8 % 16 ∧ b.val = w.toNat / 2 ^ 12 % 16 ∧ c.val = w.toNat / 2 ^ 16 % 16 ∧
      d.val = w.toNat / 2 ^ 20 % 16) ∧
  (∀ a b c d : Fin 16,
    decode (BitVec.ofNat 64 (1 + a.val * 2 ^ 8 + b.val * 2 ^ 12 + c.val * 2 ^ 16 + d.val * 2 ^ 20)) =
      .ok (.ccQr a b c d)) ∧
  (∀ (w : DWord) (i : Instr), decode w = .ok i → (∀ a b c d, i ≠ .ccQr a b c d) → w.toNat < 2 ^ 8)

/-- R77: a word selects each of the fifteen commands, named beside its OPC, exactly when it has the command's match under
the command's mask; a word that selects a command has one of the fifteen OPC values in bits 7:0. -/
def Obligations.DecodeSelectsByMatchAndMask : Prop :=
  ∀ w : DWord,
    (∀ p ∈ ([(0x02, .ccDround), (0x03, .ccPerm), (0x04, .ccBlocks), (0x05, .ccBlock), (0x06, .ccOtk), (0x10, .ccXor),
        (0x20, .pInit), (0x21, .pAbsorb), (0x22, .pFinal), (0x23, .pTag), (0x24, .pVerify),
        (0x30, .aeSeal), (0x31, .aeOpen), (0x32, .ctEq)] : List (Nat × Instr)),
      decode w = .ok p.2 ↔ w.toNat &&& 0xFFFFFFFFFFFFFFFF = p.1) ∧
    ((∃ a b c d, decode w = .ok (.ccQr a b c d)) ↔ w.toNat &&& 0xFFFFFFFFFF0000FF = 0x01) ∧
    ∀ i, decode w = .ok i → i.opc.toNat = w.toNat % 256 ∧
      i.opc.toNat ∈ [0x01, 0x02, 0x03, 0x04, 0x05, 0x06, 0x10, 0x20, 0x21, 0x22, 0x23, 0x24, 0x30, 0x31, 0x32]

/-! ## The step -/

/-- R72, R73: when the ENGINE moves, a step is the meaning of the command its latch decodes to, and nothing is added to
it. So is the first step after withFetchWord places a command word in the latch; that this step is the ENGINE's at once
is no rule but the model's choice, since R72 leaves the moment open and withFetchWord sets the lag to 0 (logs 1 and 2). -/
def Obligations.StepRunsTheDecodedCommand : Prop :=
  (∀ (s : State) (i : Instr), EngineMoves s → decode s.latch = .ok i → step s = exec i s) ∧
  ∀ (s : State) (i : Instr),
    step (s.withFetchWord 64 (encode i).toNat) = exec i (s.withFetchWord 64 (encode i).toNat)

/-- R74, R78: an unassigned opcode, a CC.QR word with a bit above 23 set and any other word with a bit above 7 set raise
bad_command when the ENGINE executes them. -/
def Obligations.IllegalWordRaisesBadCommand : Prop :=
  ∀ s : State, EngineMoves s →
    (s.latch.toNat % 256 ∉ [0x01, 0x02, 0x03, 0x04, 0x05, 0x06, 0x10, 0x20, 0x21, 0x22, 0x23, 0x24, 0x30, 0x31, 0x32] ∨
      (s.latch.toNat % 256 = 0x01 ∧ s.latch.toNat / 2 ^ 24 ≠ 0) ∨
      (s.latch.toNat % 256 ≠ 0x01 ∧ s.latch.toNat / 2 ^ 8 ≠ 0)) →
    ∃ t, step s = .next t ∧ Raised s t .badCommand

/-- R237: a command that is latched comes to its step with its word, operands, counter and context as they were at its
issue, within as many events as still land before it (log 1), unless the HOST's program is refused. -/
def Obligations.BusyCommandReachesItsStep : Prop :=
  ∀ s : State, s.busy = true → (∀ e ∈ s.env.agenda, e ≠ .reset) →
    ∃ k ≤ s.env.lag,
      (∃ u, Host.Core.run Sys2Proof.core k s = Host.Outcome.next u ∧ EngineMoves u ∧ u.latch = s.latch ∧
        u.opr = s.opr ∧ u.ctr = s.ctr ∧ u.ctx = s.ctx) ∨
      ∃ r, Host.Core.run Sys2Proof.core k s = Host.Outcome.refused r

/-! ## How a command ends -/

/-- R193: a command, or an ENGINE step, that ends with an error leaves RESULT 0, OUT_LEN 0, BUSY 0, DONE 1, the scratch
zero, and every byte of memory, the context and every other register as they were. -/
def Obligations.ErrorChangesNothingElse : Prop :=
  (∀ (i : Instr) (s t : State) (e : CmdError), exec i s = .next t → t.err = some e → Raised s t e) ∧
  ∀ (s t : State) (e : CmdError), EngineMoves s → step s = .next t → t.err = some e → Raised s t e

/-- R194, R195: the checks of every command, the first that fails named. -/
def Obligations.ErrorsAreReportedInOrder : Prop :=
  ∀ (s : State) (i : Instr),
    let raises := fun e => ∃ t, exec i s = .next t ∧ Raised s t e
    let keyed := i = .ccBlock ∨ i = .ccOtk ∨ i = .ccXor ∨ i = .aeSeal ∨ i = .aeOpen
    let mac := i = .pInit ∨ i = .pTag ∨ i = .pVerify
    let streams := i = .pAbsorb ∨ i = .pFinal
    let short := i = .aeOpen ∧ s.opr.srcLen.toNat < 16
    let long := (i = .ccXor ∧ (274877906880 < s.opr.srcLen.toNat ∨ 2 ^ 32 - s.ctr.toNat < (s.opr.srcLen.toNat + 63) / 64)) ∨
      (i = .aeSeal ∧ 274877906880 < s.opr.srcLen.toNat) ∨ (i = .aeOpen ∧ 274877906880 < s.opr.srcLen.toNat - 16)
    let key := Fits s s.opr.keyPtr 32
    let nonce := Fits s s.opr.noncePtr 12
    let src := Fits s s.opr.srcPtr s.opr.srcLen.toNat
    let dst := fun n => Fits s s.opr.dstPtr n
    let ranges := match i with
      | .ccQr _ _ _ _ | .ccDround | .ccPerm | .ccBlocks => Fits s s.opr.srcPtr 64 ∧ dst 64
      | .ccBlock => key ∧ nonce ∧ dst 64
      | .ccOtk => key ∧ nonce ∧ dst 32
      | .ccXor => key ∧ nonce ∧ src ∧ dst s.opr.srcLen.toNat
      | .pInit => key
      | .pAbsorb => src
      | .pFinal => dst 16
      | .pTag => key ∧ src ∧ dst 16
      | .pVerify => key ∧ src ∧ Fits s s.opr.auxPtr s.opr.auxLen.toNat
      | .aeSeal => key ∧ nonce ∧ src ∧ Fits s s.opr.aadPtr s.opr.aadLen.toNat ∧ dst (s.opr.srcLen.toNat + 16)
      | .aeOpen => key ∧ nonce ∧ src ∧ Fits s s.opr.aadPtr s.opr.aadLen.toNat ∧ dst (s.opr.srcLen.toNat - 16)
      | .ctEq => src ∧ Fits s s.opr.auxPtr s.opr.auxLen.toNat
    (streams → s.ctx.pctx = false → raises .noContext) ∧
    (keyed → s.opr.keyLen ≠ 32 → raises .invalidKey) ∧
    (mac → s.opr.keyLen ≠ 32 → raises .invalidMacKey) ∧
    (keyed → s.opr.keyLen = 32 → s.opr.nonceLen ≠ 12 → raises .invalidNonce) ∧
    (s.opr.keyLen = 32 → s.opr.nonceLen = 12 → short → raises .invalidEnvelope) ∧
    (s.opr.keyLen = 32 → s.opr.nonceLen = 12 → ¬short → long → raises .messageTooLong) ∧
    ((streams → s.ctx.pctx = true) → (keyed ∨ mac → s.opr.keyLen = 32) → (keyed → s.opr.nonceLen = 12) → ¬short →
      ¬long → ¬ranges → raises .memFault)

/-- R57, R190: no command faults, and a command is refused exactly where it would succeed and its output overlaps an
input range in a way the spec calls UNPREDICTABLE; that it is refused at the write, so that a command that ends with an
error is not, is the model's reading (log 6). -/
def Obligations.CommandsStopExactlyOnUndefinedOverlap : Prop :=
  ∀ (i : Instr) (s : State),
    let overlaps := ∃ x ∈ s.inputs i, ¬Apart s.opr.dstPtr (s.outCount i) x.ptr x.len ∧
      ¬(x.who = .src ∧ x.ptr = s.opr.dstPtr)
    let opens := ∃ p, openBytes (bytesAt s s.opr.keyPtr 32) (bytesAt s s.opr.noncePtr 12)
      (bytesAt s s.opr.srcPtr s.opr.srcLen.toNat) (bytesAt s s.opr.aadPtr s.opr.aadLen.toNat) = some p
    (∀ f, exec i s ≠ .fault f) ∧
    (∀ r, exec i s = .refused r →
      r = .outputOverlapsInput ∧ s.inputError i = none ∧ (i = .aeOpen → opens) ∧ overlaps) ∧
    (s.inputError i = none → (i = .aeOpen → opens) → overlaps → exec i s = .refused .outputOverlapsInput)

/-- R42, R37, R41: every command that ends leaves the registers the ENGINE does not write, clears the scratch, and
writes no byte of memory outside the OUT_LEN bytes at DST_PTR, all of which exist. OUT_LEN is 0 after an error. -/
def Obligations.CommandsWriteOnlyTheirOutput : Prop :=
  ∀ (i : Instr) (s t : State), exec i s = .next t →
    SameRegs s t ∧ t.busy = false ∧ t.done = true ∧ t.scratch = Scratch.zero ∧
    t.outLen.toNat = (if t.err = none then s.outCount i else 0) ∧
    (t.outLen.toNat = 0 ∨ s.opr.dstPtr.toNat + t.outLen.toNat ≤ s.memBytes) ∧
    (∀ a, ¬(s.opr.dstPtr.toNat ≤ a ∧ a < s.opr.dstPtr.toNat + t.outLen.toNat) → t.mem.read a = s.mem.read a) ∧
    (i ≠ .pInit → i ≠ .pAbsorb → i ≠ .pFinal → t.ctx = s.ctx)

/-- R28: RESULT is 1 exactly when the tag matched, the operands are equal, or authentication succeeded, and it is
written only at a completion (or by reset). -/
def Obligations.ResultIsOneExactlyWhenStated : Prop :=
  (∀ (i : Instr) (s t : State), exec i s = .next t →
    (t.result = true ↔
      (i = .pVerify ∧ t.err = none ∧
        poly1305 (bytesAt s s.opr.keyPtr 32) (bytesAt s s.opr.srcPtr s.opr.srcLen.toNat) =
          bytesAt s s.opr.auxPtr s.opr.auxLen.toNat) ∨
      (i = .ctEq ∧ t.err = none ∧
        bytesAt s s.opr.srcPtr s.opr.srcLen.toNat = bytesAt s s.opr.auxPtr s.opr.auxLen.toNat) ∨
      (i = .aeOpen ∧ t.err = none))) ∧
  (∀ s t : State, EngineMoves s → (∀ i, decode s.latch ≠ .ok i) → step s = .next t → t.result = false) ∧
  ∀ s t : State, step s = .next t → t.result ≠ s.result → EngineMoves s ∨ LandsNext s .reset

/-! ## The block function and its commands -/

/-- R92, R4: the quarter-round is its eight assignments in order, each reading what the ones before it wrote, for all
indices, repeated ones too; on four distinct words each sum and rotation is written out; words not named never change,
whether or not the indices are distinct. The rotation's formula is R5's, from general knowledge (log 12). -/
def Obligations.QuarterRoundEquations : Prop :=
  let rot := fun (v : Word) (n : Nat) => BitVec.ofNat 32 (v.toNat * 2 ^ n + v.toNat / 2 ^ (32 - n))
  (∀ (x : Block) (a b c d j : Fin 16),
    let add := fun (a b : Fin 16) (f : Fin 16 → Word) => Function.update f a (f a + f b)
    let mix := fun (d a : Fin 16) (n : Nat) (f : Fin 16 → Word) => Function.update f d (rot (f d ^^^ f a) n)
    let x0 := fun k : Fin 16 => x[k]
    let x2 := mix d a 16 (add a b x0)
    let x4 := mix b c 12 (add c d x2)
    let x6 := mix d a 8 (add a b x4)
    let x8 := mix b c 7 (add c d x6)
    (quarterRound x a b c d)[j] = x8 j) ∧
  (∀ (x : Block) (a b c d j : Fin 16), j ≠ a → j ≠ b → j ≠ c → j ≠ d → (quarterRound x a b c d)[j] = x[j]) ∧
  ∀ (x : Block) (a b c d : Fin 16), [a, b, c, d].Nodup →
    let a1 := x[a] + x[b]
    let d1 := rot (x[d] ^^^ a1) 16
    let c1 := x[c] + d1
    let b1 := rot (x[b] ^^^ c1) 12
    let a2 := a1 + b1
    let d2 := rot (d1 ^^^ a2) 8
    let c2 := c1 + d2
    let b2 := rot (b1 ^^^ c2) 7
    let y := quarterRound x a b c d
    y[a] = a2 ∧ y[b] = b2 ∧ y[c] = c2 ∧ y[d] = d2

/-- R93, R94, R95: a round gives the same result for every order of its four quarter-rounds. -/
def Obligations.RoundsDoNotDependOnLaneOrder : Prop :=
  ∀ (x : Block) (l : List (Fin 16 × Fin 16 × Fin 16 × Fin 16)),
    let run := l.foldl (fun y q => quarterRound y q.1 q.2.1 q.2.2.1 q.2.2.2) x
    (l.Perm [(0, 4, 8, 12), (1, 5, 9, 13), (2, 6, 10, 14), (3, 7, 11, 15)] → run = columnRound x) ∧
    (l.Perm [(0, 5, 10, 15), (1, 6, 11, 12), (2, 7, 8, 13), (3, 4, 9, 14)] → run = diagonalRound x)

/-- R96: the permutation is ten double rounds, a bijection, and fixes the all-zero state. -/
def Obligations.PermutationIsABijection : Prop :=
  (∀ x, doubleRound x = diagonalRound (columnRound x)) ∧ perm20 = doubleRound^[10] ∧ Function.Bijective perm20 ∧
    perm20 (Vector.replicate 16 0) = Vector.replicate 16 0

/-- R97: the permuted state plus the original state, word by word modulo 2^32; the block function is the 64 bytes of that,
byte `4k + i` being byte `i` of word `k`. -/
def Obligations.BlockFunctionBytes : Prop :=
  ∀ s : Block, (blockFn s).length = 64 ∧
    ∀ k i, (hk : k < 16) → i < 4 →
      (blockFn s)[4 * k + i]? =
        some (BitVec.ofNat 8 (((perm20 s)[k].toNat + s[k].toNat) % 2 ^ 32 / 2 ^ (8 * i)))

/-- R90: the four constant words are the stated ones, the little-endian words of the ASCII string. The key words, the
counter and the nonce words follow them, little-endian, in every initial state. -/
def Obligations.InitialStateWords : Prop :=
  ∀ (k n : List Byte) (ctr : Word), k.length = 32 → n.length = 12 →
    let s := initBlock k ctr n
    let word := fun (b : List Byte) (i : Nat) =>
      (b.getD (4 * i) 0).toNat + 2 ^ 8 * (b.getD (4 * i + 1) 0).toNat + 2 ^ 16 * (b.getD (4 * i + 2) 0).toNat +
        2 ^ 24 * (b.getD (4 * i + 3) 0).toNat
    let expand : List Byte :=
      [0x65, 0x78, 0x70, 0x61, 0x6e, 0x64, 0x20, 0x33, 0x32, 0x2d, 0x62, 0x79, 0x74, 0x65, 0x20, 0x6b]
    s[0] = 0x61707865 ∧ s[1] = 0x3320646e ∧ s[2] = 0x79622d32 ∧ s[3] = 0x6b206574 ∧
      (∀ i, (h : i < 4) → s[i].toNat = word expand i) ∧ (∀ i, (h : i < 8) → s[4 + i].toNat = word k i) ∧
      s[12] = ctr ∧ ∀ i, (h : i < 3) → s[13 + i].toNat = word n i

/-- R100 to R103: CC.QR, CC.DROUND, CC.PERM and CC.BLOCKS complete on valid operands; the 16 words at DST_PTR are the
function of the 16 words at SRC_PTR, and every other byte, register and the context are unchanged. -/
def Obligations.StateCommandsComplete : Prop :=
  ∀ (s : State) (i : Instr) (f : Block → Block) (x : Block),
    Fits s s.opr.srcPtr 64 → Fits s s.opr.dstPtr 64 → OutInPlaceOrApart s 64 64 →
    ((∃ a b c d, i = .ccQr a b c d ∧ f = fun x => quarterRound x a b c d) ∨ (i = .ccDround ∧ f = doubleRound) ∨
      (i = .ccPerm ∧ f = perm20) ∨ (i = .ccBlocks ∧ f = fun x => Vector.zipWith (· + ·) (perm20 x) x)) →
    (∀ k, (h : k < 16) → x[k] = wordAt s (s.opr.srcPtr.toNat + 4 * k)) →
    ∃ t, exec i s = .next t ∧ Ended s t none false 64 ∧ t.ctx = s.ctx ∧
      (∀ k, (h : k < 16) → wordAt t (s.opr.dstPtr.toNat + 4 * k) = (f x)[k]) ∧
      ∀ a, ¬(s.opr.dstPtr.toNat ≤ a ∧ a < s.opr.dstPtr.toNat + 64) → t.mem.read a = s.mem.read a

/-- R104, R105: CC.BLOCK and CC.OTK complete on a legal key and nonce and write the keyed block of REG.CTR, or the first
32 bytes of the keyed block of counter 0. -/
def Obligations.KeyedBlockCommandsComplete : Prop :=
  ∀ s : State, KeyOk s → NonceOk s →
    let k := bytesAt s s.opr.keyPtr 32
    let n := bytesAt s s.opr.noncePtr 12
    (Fits s s.opr.dstPtr 64 → OutApartFromKeys s 64 →
      ∃ t, exec .ccBlock s = .next t ∧ Ended s t none false 64 ∧ t.ctx = s.ctx ∧
        Wrote s t (blockFn (initBlock k s.ctr n))) ∧
    (Fits s s.opr.dstPtr 32 → OutApartFromKeys s 32 →
      ∃ t, exec .ccOtk s = .next t ∧ Ended s t none false 32 ∧ t.ctx = s.ctx ∧
        Wrote s t ((blockFn (initBlock k 0 n)).take 32))

/-- R120, R122: CC.XOR completes on legal operands; each output byte is the data byte xor the byte of the block whose
counter is REG.CTR plus the block index, which does not wrap; REG.CTR is not changed. -/
def Obligations.CcXorCompletes : Prop :=
  ∀ s : State, KeyOk s → NonceOk s →
    s.opr.srcLen.toNat ≤ 274877906880 → (s.opr.srcLen.toNat + 63) / 64 ≤ 2 ^ 32 - s.ctr.toNat →
    Fits s s.opr.srcPtr s.opr.srcLen.toNat → Fits s s.opr.dstPtr s.opr.srcLen.toNat →
    OutApartFromKeys s s.opr.srcLen.toNat → OutInPlaceOrApart s s.opr.srcLen.toNat s.opr.srcLen.toNat →
    ∃ t, exec .ccXor s = .next t ∧ Ended s t none false s.opr.srcLen.toNat ∧ t.ctx = s.ctx ∧
      (∀ j < s.opr.srcLen.toNat, s.ctr.toNat + j / 64 < 2 ^ 32 ∧
        t.mem.read (s.opr.dstPtr.toNat + j) =
          s.mem.read (s.opr.srcPtr.toNat + j) ^^^
            (keyedBlock (bytesAt s s.opr.keyPtr 32) (bytesAt s s.opr.noncePtr 12)
              (BitVec.ofNat 32 (s.ctr.toNat + j / 64))).getD (j % 64) 0) ∧
      ∀ a, ¬(s.opr.dstPtr.toNat ≤ a ∧ a < s.opr.dstPtr.toNat + s.opr.srcLen.toNat) → t.mem.read a = s.mem.read a

/-- R123 on the machine: CC.XOR in place, run twice, gives back the memory it began with (in the canonical form of log 4,
which is the model's). -/
def Obligations.XorInPlaceTwiceRestoresMemory : Prop :=
  ∀ s : State, s.mem.wf → KeyOk s → NonceOk s →
    s.opr.srcLen.toNat ≤ 274877906880 → (s.opr.srcLen.toNat + 63) / 64 ≤ 2 ^ 32 - s.ctr.toNat →
    Fits s s.opr.srcPtr s.opr.srcLen.toNat → s.opr.dstPtr = s.opr.srcPtr →
    OutApartFromKeys s s.opr.srcLen.toNat →
    ∃ t u, exec .ccXor s = .next t ∧ exec .ccXor t = .next u ∧ u.mem = s.mem ∧ u.err = none

/-! ## Poly1305 -/

/-- R131: the clamp clears the top four bits of bytes 3, 7, 11 and 15 and the bottom two bits of bytes 4, 8 and 12 of
the multiplier, no other bit, and leaves it below 2^124. -/
def Obligations.ClampIsBytewise : Prop :=
  ∀ (r : BitVec 128),
    (clamp r).toNat = r.toNat &&& 0x0ffffffc0ffffffc0ffffffc0fffffff ∧ (clamp r).toNat < 2 ^ 124 ∧
    ∀ j < 16, (leBytes (clamp r).toNat 16)[j]? =
      (leBytes r.toNat 16)[j]?.map fun b =>
        if j = 3 ∨ j = 7 ∨ j = 11 ∨ j = 15 then b &&& 0x0f
        else if j = 4 ∨ j = 8 ∨ j = 12 then b &&& 0xfc else b

/-- R137: after an absorption step the accumulator lies in [0, p); the sum before it is below 2^131 and the product
below 2^255; the final sum lies in [0, 2^128). -/
def Obligations.AccumulatorBounds : Prop :=
  ∀ (r s : BitVec 128) (a : Nat) (m : List Byte), a < 2 ^ 130 - 5 → m.length ≤ 16 →
    absorbInt (clamp r) a (blockInt m) < 2 ^ 130 - 5 ∧
    a + blockInt m < (2 ^ 130 - 5) + 2 ^ 129 ∧ (2 ^ 130 - 5) + 2 ^ 129 < 2 ^ 131 ∧
    (a + blockInt m) * (clamp r).toNat < 2 ^ 255 ∧
    le (polyTag a s) = (a + s.toNat) % 2 ^ 128 ∧ (a + s.toNat) % 2 ^ 128 < 2 ^ 128

/-- R132, R133, R136, R145: the accumulator after a message is the polynomial of its block integers in the multiplier,
the last block with exponent 1. -/
def Obligations.AccumulatorIsAPolynomial : Prop :=
  ∀ (r : BitVec 128) (m : List Byte),
    let t := (m.length + 15) / 16
    let chunk := fun i => (m.drop (16 * i)).take 16
    polyAcc r m =
      ((List.range t).map fun i => (le (chunk i) + 2 ^ (8 * (chunk i).length)) * r.toNat ^ (t - i)).sum % (2 ^ 130 - 5)

/-- R130, R131, R139: P.INIT completes on a legal key and opens a context with the clamped multiplier, the finalizer,
and nothing absorbed; memory is unchanged. An open context is discarded. -/
def Obligations.PInitCompletes : Prop :=
  ∀ s : State, KeyOk s →
    ∃ t, exec .pInit s = .next t ∧ Ended s t none false 0 ∧ SameMem s t ∧
      t.ctx.pctx = true ∧
      t.ctx.pr.toNat = le (bytesAt s s.opr.keyPtr 16) &&& 0x0ffffffc0ffffffc0ffffffc0fffffff ∧
      t.ctx.ps.toNat = le ((bytesAt s s.opr.keyPtr 32).drop 16) ∧
      t.ctx.acc = 0 ∧ t.ctx.pbl = 0 ∧ ∀ j, (h : j < 16) → t.ctx.pb[j] = 0

/-- R140: P.ABSORB completes with an open context. Of the bytes kept before and the new ones together, the full 16-byte
blocks are absorbed in order and the rest is kept; memory is unchanged. -/
def Obligations.PAbsorbCompletes : Prop :=
  ∀ s : State, s.ctx.pctx = true → Fits s s.opr.srcPtr s.opr.srcLen.toNat →
    let all := s.ctx.pb.toList.take s.ctx.pbl.val ++ bytesAt s s.opr.srcPtr s.opr.srcLen.toNat
    ∃ t, exec .pAbsorb s = .next t ∧ Ended s t none false 0 ∧ SameMem s t ∧
      t.ctx.pctx = true ∧ t.ctx.pr = s.ctx.pr ∧ t.ctx.ps = s.ctx.ps ∧
      t.ctx.acc = (List.range (all.length / 16)).foldl
        (fun a i => (a + (le ((all.drop (16 * i)).take 16) + 2 ^ 128)) * s.ctx.pr.toNat % (2 ^ 130 - 5)) s.ctx.acc ∧
      t.ctx.pbl.val = all.length % 16 ∧
      t.ctx.pb.toList.take t.ctx.pbl.val = all.drop (16 * (all.length / 16))

/-- R141, R135: P.FINAL completes with an open context, writes the 16-byte tag of the accumulator (a kept partial block
absorbed first) and closes the context. -/
def Obligations.PFinalCompletes : Prop :=
  ∀ s : State, s.ctx.pctx = true → Fits s s.opr.dstPtr 16 →
    let a := if s.ctx.pbl.val = 0 then s.ctx.acc
      else (s.ctx.acc + (le (s.ctx.pb.toList.take s.ctx.pbl.val) + 2 ^ (8 * s.ctx.pbl.val))) * s.ctx.pr.toNat %
        (2 ^ 130 - 5)
    ∃ t, exec .pFinal s = .next t ∧ Ended s t none false 16 ∧
      Wrote s t (leBytes ((a + s.ctx.ps.toNat) % 2 ^ 128) 16) ∧
      t.ctx = ⟨false, 0, 0, 0, Vector.replicate 16 0, 0⟩

/-- R142, R143: P.TAG and P.VERIFY complete on a legal key; P.TAG writes the tag of the message, P.VERIFY answers
whether it equals the supplied bytes and writes nothing; the context is not changed. -/
def Obligations.OneShotMacCommandsComplete : Prop :=
  ∀ s : State, KeyOk s → Fits s s.opr.srcPtr s.opr.srcLen.toNat →
    let tag := poly1305 (bytesAt s s.opr.keyPtr 32) (bytesAt s s.opr.srcPtr s.opr.srcLen.toNat)
    (Fits s s.opr.dstPtr 16 → Apart s.opr.dstPtr 16 s.opr.keyPtr 32 →
      OutInPlaceOrApart s 16 s.opr.srcLen.toNat →
      ∃ t, exec .pTag s = .next t ∧ Ended s t none false 16 ∧ t.ctx = s.ctx ∧ Wrote s t tag) ∧
    (Fits s s.opr.auxPtr s.opr.auxLen.toNat →
      ∃ t b, exec .pVerify s = .next t ∧ Ended s t none b 0 ∧ t.ctx = s.ctx ∧ SameMem s t ∧
        (b = true ↔ tag = bytesAt s s.opr.auxPtr s.opr.auxLen.toNat))

/-- R144: P.INIT, then the message in any pieces by P.ABSORB, then P.FINAL writes the one-shot tag of the whole
message. -/
def Obligations.ChunkedMacEqualsOneShot : Prop :=
  ∀ (s t u v : State) (m : List Byte),
    exec .pInit s = .next t → t.err = none → AbsorbRun t.ctx m u.ctx →
    exec .pFinal u = .next v → v.err = none →
    Wrote u v (poly1305 (bytesAt s s.opr.keyPtr 32) m)

/-! ## AEAD and comparison -/

/-- R161, R8: the MAC input is the AAD, zeros up to a multiple of 16 bytes, the ciphertext, zeros up to a multiple of 16
bytes, then the two lengths in bytes, eight little-endian bytes each, the AAD's first; its length is a multiple of 16,
and it determines the AAD and the ciphertext. -/
def Obligations.MacInputIsUnambiguous : Prop :=
  (∀ a ct : List Byte, a.length < 2 ^ 64 → ct.length < 2 ^ 64 →
    let m := macData a ct
    let p := (a.length + 15) / 16 * 16
    let q := p + (ct.length + 15) / 16 * 16
    m.length = q + 16 ∧
    (∀ j < a.length, m[j]? = a[j]?) ∧ (∀ j, a.length ≤ j → j < p → m[j]? = some 0) ∧
    (∀ j < ct.length, m[p + j]? = ct[j]?) ∧ (∀ j, p + ct.length ≤ j → j < q → m[j]? = some 0) ∧
    (∀ j < 8, m[q + j]? = some (BitVec.ofNat 8 (a.length / 2 ^ (8 * j)))) ∧
    ∀ j < 8, m[q + 8 + j]? = some (BitVec.ofNat 8 (ct.length / 2 ^ (8 * j)))) ∧
  (∀ a c : List Byte, (macData a c).length % 16 = 0) ∧
  ∀ a c a' c' : List Byte, a.length < 2 ^ 64 → c.length < 2 ^ 64 → a'.length < 2 ^ 64 → c'.length < 2 ^ 64 →
    macData a c = macData a' c' → a = a' ∧ c = c'

/-- R162, R165: AE.SEAL completes on legal operands and writes the ciphertext from counter 1, then the tag over AAD and
ciphertext under the one-time key; REG.CTR does not matter. -/
def Obligations.AeSealCompletes : Prop :=
  ∀ s : State, KeyOk s → NonceOk s → s.opr.srcLen.toNat ≤ 274877906880 →
    Fits s s.opr.srcPtr s.opr.srcLen.toNat → Fits s s.opr.aadPtr s.opr.aadLen.toNat →
    Fits s s.opr.dstPtr (s.opr.srcLen.toNat + 16) → OutApartFromKeys s (s.opr.srcLen.toNat + 16) →
    Apart s.opr.dstPtr (s.opr.srcLen.toNat + 16) s.opr.aadPtr s.opr.aadLen.toNat →
    OutInPlaceOrApart s (s.opr.srcLen.toNat + 16) s.opr.srcLen.toNat →
    let k := bytesAt s s.opr.keyPtr 32
    let n := bytesAt s s.opr.noncePtr 12
    let c := (bytesAt s s.opr.srcPtr s.opr.srcLen.toNat).mapIdx fun j b =>
      b ^^^ (keyedBlock k n (BitVec.ofNat 32 (1 + j / 64))).getD (j % 64) 0
    ∃ t, exec .aeSeal s = .next t ∧ Ended s t none false (s.opr.srcLen.toNat + 16) ∧ t.ctx = s.ctx ∧
      Wrote s t (c ++ poly1305 ((keyedBlock k n 0).take 32) (macData (bytesAt s s.opr.aadPtr s.opr.aadLen.toNat) c))

/-- R163, R166, R196: AE.OPEN on legal operands completes with RESULT 1 and the plaintext when the tag matches, and
raises auth_failed, writing nothing, when it does not. -/
def Obligations.AeOpenCompletesOrFailsAuthentication : Prop :=
  ∀ s : State, KeyOk s → NonceOk s → 16 ≤ s.opr.srcLen.toNat → s.opr.srcLen.toNat - 16 ≤ 274877906880 →
    Fits s s.opr.srcPtr s.opr.srcLen.toNat → Fits s s.opr.aadPtr s.opr.aadLen.toNat →
    Fits s s.opr.dstPtr (s.opr.srcLen.toNat - 16) →
    let k := bytesAt s s.opr.keyPtr 32
    let n := bytesAt s s.opr.noncePtr 12
    let c := bytesAt s s.opr.srcPtr (s.opr.srcLen.toNat - 16)
    let tag := (bytesAt s s.opr.srcPtr s.opr.srcLen.toNat).drop (s.opr.srcLen.toNat - 16)
    let expected := poly1305 ((keyedBlock k n 0).take 32) (macData (bytesAt s s.opr.aadPtr s.opr.aadLen.toNat) c)
    (expected = tag → OutApartFromKeys s (s.opr.srcLen.toNat - 16) →
      Apart s.opr.dstPtr (s.opr.srcLen.toNat - 16) s.opr.aadPtr s.opr.aadLen.toNat →
      OutInPlaceOrApart s (s.opr.srcLen.toNat - 16) s.opr.srcLen.toNat →
      ∃ t, exec .aeOpen s = .next t ∧ Ended s t none true (s.opr.srcLen.toNat - 16) ∧ t.ctx = s.ctx ∧
        Wrote s t (c.mapIdx fun j b => b ^^^ (keyedBlock k n (BitVec.ofNat 32 (1 + j / 64))).getD (j % 64) 0)) ∧
    (expected ≠ tag → ∃ t, exec .aeOpen s = .next t ∧ Raised s t .authFailed)

/-- R164, R167, R168: CT.EQ completes on valid ranges and answers 1 exactly when the two byte strings are equal. -/
def Obligations.CtEqCompletes : Prop :=
  ∀ s : State, Fits s s.opr.srcPtr s.opr.srcLen.toNat → Fits s s.opr.auxPtr s.opr.auxLen.toNat →
    ∃ t b, exec .ctEq s = .next t ∧ Ended s t none b 0 ∧ t.ctx = s.ctx ∧ SameMem s t ∧
      (b = true ↔ s.opr.srcLen = s.opr.auxLen ∧
        ∀ j < s.opr.srcLen.toNat, s.mem.read (s.opr.srcPtr.toNat + j) = s.mem.read (s.opr.auxPtr.toNat + j))

/-- R168: AE.OPEN of the output of AE.SEAL, with the key, nonce and AAD it was sealed with, succeeds and writes the
original plaintext. -/
def Obligations.SealThenOpenGivesThePlaintext : Prop :=
  ∀ (s t u : State) (d : DWord),
    exec .aeSeal s = .next t → t.err = none →
    u.mem = t.mem → u.cfg = t.cfg →
    u.opr = { t.opr with srcPtr := s.opr.dstPtr, srcLen := s.opr.srcLen + 16, dstPtr := d } →
    Fits u d s.opr.srcLen.toNat → OutApartFromKeys u s.opr.srcLen.toNat →
    Apart d s.opr.srcLen.toNat s.opr.aadPtr s.opr.aadLen.toNat →
    OutInPlaceOrApart u s.opr.srcLen.toNat (s.opr.srcLen.toNat + 16) →
    ∃ v, exec .aeOpen u = .next v ∧ Ended u v none true s.opr.srcLen.toNat ∧
      Wrote u v (bytesAt s s.opr.srcPtr s.opr.srcLen.toNat)

/-! ## The register bank and the HOST -/

/-- R71: a write of REG.CMD while BUSY = 0 is accepted whatever the value; while BUSY = 1 it is dropped and sets OVR;
nothing else in the CORE changes. -/
def Obligations.CommandIssue : Prop :=
  ∀ (s : State) (v : DWord) (rest : List Event), Lands s (.host (.wr 0x00 8 v)) rest →
    ∃ t, step s = .next t ∧ HostActed s t rest [] ∧
      (s.busy = false → t = { s with latch := v, busy := true, done := false, env := t.env }) ∧
      (s.busy = true → t = { s with ovr := true, env := t.env })

/-- R29, R34, R35, R224: CTR and the eleven operand registers at their offsets of R22. While BUSY = 0 a write is stored
(CTR its low 32 bits); while BUSY = 1 it is dropped and sets OVR; nothing else in the CORE changes. -/
def Obligations.OperandRegisterWrites : Prop :=
  ∀ (s : State) (offset : Nat) (v : DWord) (rest : List Event),
    Lands s (.host (.wr offset 8 v)) rest →
    offset ∈ [0x18, 0x20, 0x28, 0x30, 0x38, 0x40, 0x48, 0x50, 0x58, 0x60, 0x68, 0x70] →
    ∃ t, step s = .next t ∧ HostActed s t rest [] ∧
      (s.busy = true → t = { s with ovr := true, env := t.env }) ∧
      (s.busy = false →
        (offset = 0x18 → t = { s with ctr := BitVec.ofNat 32 v.toNat, env := t.env }) ∧
        (offset = 0x20 → t = { s with opr := { s.opr with keyPtr := v }, env := t.env }) ∧
        (offset = 0x28 → t = { s with opr := { s.opr with keyLen := v }, env := t.env }) ∧
        (offset = 0x30 → t = { s with opr := { s.opr with noncePtr := v }, env := t.env }) ∧
        (offset = 0x38 → t = { s with opr := { s.opr with nonceLen := v }, env := t.env }) ∧
        (offset = 0x40 → t = { s with opr := { s.opr with srcPtr := v }, env := t.env }) ∧
        (offset = 0x48 → t = { s with opr := { s.opr with srcLen := v }, env := t.env }) ∧
        (offset = 0x50 → t = { s with opr := { s.opr with aadPtr := v }, env := t.env }) ∧
        (offset = 0x58 → t = { s with opr := { s.opr with aadLen := v }, env := t.env }) ∧
        (offset = 0x60 → t = { s with opr := { s.opr with auxPtr := v }, env := t.env }) ∧
        (offset = 0x68 → t = { s with opr := { s.opr with auxLen := v }, env := t.env }) ∧
        (offset = 0x70 → t = { s with opr := { s.opr with dstPtr := v }, env := t.env }))

/-- R32: STATUS bit 1 clears DONE and bit 3 clears OVR. Beside it, CTRL stores IE, and OUT_LEN and the reserved slots
ignore writes, whether BUSY is 0 or 1; nothing else in the CORE changes and OVR is not set. -/
def Obligations.StatusControlAndReservedWrites : Prop :=
  ∀ (s : State) (offset : Nat) (v : DWord) (rest : List Event),
    Lands s (.host (.wr offset 8 v)) rest → offset % 8 = 0 → offset < 256 →
    (offset = 0x08 → ∃ t, step s = .next t ∧ HostActed s t rest [] ∧
      t = { s with done := if v.toNat / 2 % 2 = 1 then false else s.done,
                   ovr := if v.toNat / 8 % 2 = 1 then false else s.ovr, env := t.env }) ∧
    (offset = 0x10 → ∃ t, step s = .next t ∧ HostActed s t rest [] ∧
      t = { s with ie := decide (v.toNat % 2 = 1), env := t.env }) ∧
    (0x78 ≤ offset → ∃ t, step s = .next t ∧ HostActed s t rest [] ∧ t = { s with env := t.env })

/-- R22 to R25, R31, R60, R191: what a read of each slot returns, STATUS bit by bit; a read changes nothing in the CORE. -/
def Obligations.RegisterReads : Prop :=
  ∀ (s : State) (offset : Nat) (rest : List Event),
    Lands s (.host (.rd offset 8)) rest → offset % 8 = 0 → offset < 256 →
    ∃ t v, step s = .next t ∧ HostActed s t rest [.reg offset v] ∧ t = { s with env := t.env } ∧
      (offset = 0x00 → v = 0) ∧
      (offset = 0x08 → v.toNat = s.busy.toNat + 2 * s.done.toNat + 4 * s.result.toNat + 8 * s.ovr.toNat +
        16 * s.ctx.pctx.toNat + 256 * match s.err with
          | none => 0 | some .invalidKey => 1 | some .invalidNonce => 2 | some .invalidEnvelope => 3
          | some .messageTooLong => 4 | some .authFailed => 5 | some .invalidMacKey => 6 | some .badCommand => 7
          | some .memFault => 8 | some .noContext => 9) ∧
      (offset = 0x10 → v.toNat = s.ie.toNat) ∧ (offset = 0x18 → v.toNat = s.ctr.toNat) ∧
      (offset = 0x20 → v = s.opr.keyPtr) ∧ (offset = 0x28 → v = s.opr.keyLen) ∧
      (offset = 0x30 → v = s.opr.noncePtr) ∧ (offset = 0x38 → v = s.opr.nonceLen) ∧
      (offset = 0x40 → v = s.opr.srcPtr) ∧ (offset = 0x48 → v = s.opr.srcLen) ∧
      (offset = 0x50 → v = s.opr.aadPtr) ∧ (offset = 0x58 → v = s.opr.aadLen) ∧
      (offset = 0x60 → v = s.opr.auxPtr) ∧ (offset = 0x68 → v = s.opr.auxLen) ∧
      (offset = 0x70 → v = s.opr.dstPtr) ∧ (offset = 0x78 → v = s.outLen) ∧ (0x80 ≤ offset → v = 0)

/-- R22: a register access that is not an aligned 64-bit access of a whole slot is refused. -/
def Obligations.UndefinedRegisterAccessIsRefused : Prop :=
  ∀ (s : State) (offset width : Nat) (v : DWord) (rest : List Event),
    ¬(width = 8 ∧ offset % 8 = 0 ∧ offset < 256) →
    (Lands s (.host (.wr offset width v)) rest → step s = .refused .hostRegisterAccess) ∧
    (Lands s (.host (.rd offset width)) rest → step s = .refused .hostRegisterAccess)

/-- R44: with BUSY = 0, nothing a HOST action reads, and no byte it leaves in memory, depends on the latch, the scratch
or anything of the streaming context but PCTX. -/
def Obligations.HiddenStateIsNotReadable : Prop :=
  ∀ (s t : State) (a : HostAction) (rest : List Event) (l : DWord) (x : Scratch) (c : PolyCtx),
    s.busy = false → c.pctx = s.ctx.pctx → Lands s (.host a) rest → step s = .next t →
    ∃ t', step { s with latch := l, scratch := x, ctx := c } = .next t' ∧ t'.env = t.env ∧ t'.mem = t.mem ∧
      ∀ r, t'.readSlot r = t.readSlot r

/-- R58: HOST data writes, in bytes and as a little-endian value of 1 to 8 bytes, to bytes that exist and that the
latched command does not use (as logs 7 and 8 read R59 and R58; of a value that does not fit its bytes the low ones are
written, log 8); nothing else changes. -/
def Obligations.HostDataWrites : Prop :=
  ∀ (s : State) (addr : DWord) (bs : List Byte) (v : DWord) (rest : List Event),
    Fits s addr bs.length → ClearOfCommand s addr bs.length →
    (Lands s (.host (.mw addr bs)) rest ∨
      (Lands s (.host (.st addr bs.length v)) rest ∧ 1 ≤ bs.length ∧ bs.length ≤ 8 ∧
        le bs = v.toNat % 256 ^ bs.length)) →
    ∃ t, step s = .next t ∧ HostActed s t rest [] ∧ t = { s with mem := t.mem, env := t.env } ∧
      (∀ j, (h : j < bs.length) → t.mem.read (addr.toNat + j) = bs[j]) ∧
      ∀ a, ¬(addr.toNat ≤ a ∧ a < addr.toNat + bs.length) → t.mem.read a = s.mem.read a

/-- R58: HOST data reads, in bytes and as a little-endian value of 1 to 8 bytes, of bytes that exist and that the
latched command does not use (as logs 7 and 8 read R59 and R58); nothing in the CORE changes. -/
def Obligations.HostDataReads : Prop :=
  ∀ (s : State) (addr : DWord) (n : Nat) (rest : List Event), Fits s addr n → ClearOfCommand s addr n →
    (Lands s (.host (.mr addr n)) rest →
      ∃ t bs, step s = .next t ∧ HostActed s t rest [.bytes addr bs] ∧ t = { s with env := t.env } ∧
        bs.length = n ∧ ∀ j, (h : j < bs.length) → bs[j] = s.mem.read (addr.toNat + j)) ∧
    (Lands s (.host (.ld addr n)) rest → 1 ≤ n → n ≤ 8 →
      ∃ t v, step s = .next t ∧ HostActed s t rest [.word addr v] ∧ t = { s with env := t.env } ∧
        v.toNat < 256 ^ n ∧ ∀ j < n, s.mem.read (addr.toNat + j) = BitVec.ofNat 8 (v.toNat / 256 ^ j))

/-- R58, R59: a HOST data access beyond data memory is refused, and so is one, while BUSY = 1, to a byte of a range of
the latched command (log 7); a unit that is not 1 to 8 bytes is refused (log 8). -/
def Obligations.UndefinedDataAccessIsRefused : Prop :=
  ∀ (s : State) (addr : DWord) (n : Nat) (v : DWord) (rest : List Event),
    let unit := Lands s (.host (.st addr n v)) rest ∨ Lands s (.host (.ld addr n)) rest
    let string := (∃ bs, bs.length = n ∧ Lands s (.host (.mw addr bs)) rest) ∨ Lands s (.host (.mr addr n)) rest
    (unit → ¬(1 ≤ n ∧ n ≤ 8) → step s = .refused .hostAccessSize) ∧
    (string ∨ (unit ∧ 1 ≤ n ∧ n ≤ 8) →
      (n ≠ 0 → s.memBytes < addr.toNat + n → step s = .refused .hostMemoryRange) ∧
      (Fits s addr n → ∀ i, s.busy = true → decode s.latch = .ok i →
        (∃ r ∈ s.output i :: s.inputs i, ¬Apart addr n r.ptr r.len) → step s = .refused .hostTouchesOperand))

/-- R81, log 1: `wait` reads STATUS; it stays the HOST's next action while BUSY is 1 and is done when it reads BUSY = 0. -/
def Obligations.WaitPollsStatus : Prop :=
  ∀ (s : State) (rest : List Event), Lands s (.host .wait) rest →
    ∃ t, step s = .next t ∧ t = { s with env := t.env } ∧ t.env.seen = .reg 0x08 s.statusWord :: s.env.seen ∧
      (s.busy = true → t.env.agenda = s.env.agenda ∧ t.env.hostPos = s.env.hostPos ∧ t.env.lag + 1 = s.env.lag) ∧
      (s.busy = false → t.env.agenda = rest ∧ t.env.hostPos = s.env.hostPos + 1)

/-! ## Rules of the whole machine -/

/-- R26: an accepted write of REG.CMD sets BUSY and writes the latch, a completion clears BUSY, reset clears both,
and nothing else changes either. -/
def Obligations.BusyAndLatchChangeOnlyAsStated : Prop :=
  ∀ s t : State, step s = .next t →
    (∀ v, s.busy = false → LandsNext s (.host (.wr 0x00 8 v)) → t.busy = true ∧ t.latch = v) ∧
    (EngineMoves s → t.busy = false) ∧ (LandsNext s .reset → t.busy = false ∧ t.latch = 0) ∧
    (s.busy = false → t.busy = true → LandsNext s (.host (.wr 0x00 8 t.latch))) ∧
    (s.busy = true → t.busy = false → EngineMoves s ∨ LandsNext s .reset) ∧
    (t.latch ≠ s.latch → (s.busy = false ∧ LandsNext s (.host (.wr 0x00 8 t.latch))) ∨ LandsNext s .reset)

/-- R27: DONE is set by every completion, cleared by an accepted issue and by a write of STATUS with bit 1 set, kept by a
write with bit 1 clear, and changed by nothing else but reset. -/
def Obligations.DoneChangesExactlyAsStated : Prop :=
  ∀ s t : State, step s = .next t →
    (EngineMoves s → t.done = true) ∧
    (∀ v, s.busy = false → LandsNext s (.host (.wr 0x00 8 v)) → t.done = false) ∧
    (∀ v, LandsNext s (.host (.wr 0x08 8 v)) → t.done = if v.toNat / 2 % 2 = 1 then false else s.done) ∧
    (s.done = false → t.done = true → EngineMoves s) ∧
    (s.done = true → t.done = false →
      (∃ v, s.busy = false ∧ LandsNext s (.host (.wr 0x00 8 v))) ∨
      (∃ v, LandsNext s (.host (.wr 0x08 8 v)) ∧ v.toNat / 2 % 2 = 1) ∨ LandsNext s .reset)

/-- R29: a write of CMD, CTR or an operand register that arrives while BUSY = 1 is dropped and sets OVR; nothing else
sets it, and only a write of STATUS with bit 3 set, or reset, clears it. -/
def Obligations.OvrChangesExactlyAsStated : Prop :=
  ∀ s t : State, step s = .next t →
    (∀ offset v, s.busy = true → LandsNext s (.host (.wr offset 8 v)) →
      offset ∈ [0x00, 0x18, 0x20, 0x28, 0x30, 0x38, 0x40, 0x48, 0x50, 0x58, 0x60, 0x68, 0x70] →
      t = { s with ovr := true, env := t.env }) ∧
    (∀ v, LandsNext s (.host (.wr 0x08 8 v)) → v.toNat / 8 % 2 = 1 → t.ovr = false) ∧
    (LandsNext s .reset → t.ovr = false) ∧
    (s.ovr = false → t.ovr = true →
      s.busy = true ∧ ∃ offset v, LandsNext s (.host (.wr offset 8 v)) ∧
        (offset = 0x00 ∨ (0x18 ≤ offset ∧ offset ≤ 0x70))) ∧
    (s.ovr = true → t.ovr = false →
      (∃ v, LandsNext s (.host (.wr 0x08 8 v)) ∧ v.toNat / 8 % 2 = 1) ∨ LandsNext s .reset)

/-- R33, R34, R35: REG.CTR and the operand registers change only by a HOST write while BUSY = 0 or by reset, and IE only
by a HOST write of CTRL or by reset. -/
def Obligations.OperandsChangeOnlyByTheHost : Prop :=
  ∀ s t : State, step s = .next t →
    (t.opr ≠ s.opr ∨ t.ctr ≠ s.ctr →
      (s.busy = false ∧ ∃ offset v, LandsNext s (.host (.wr offset 8 v)) ∧ 0x18 ≤ offset ∧ offset ≤ 0x70) ∨
      LandsNext s .reset) ∧
    (t.ie ≠ s.ie → (∃ v, LandsNext s (.host (.wr 0x10 8 v))) ∨ LandsNext s .reset)

/-- R30, R36, R37, R42: ERR and OUT_LEN change only at a completion or by reset, the streaming context only at the
completion of P.INIT, P.ABSORB or P.FINAL or by reset, and memory only at a completion, by a HOST data write, or by
reset. MEM_BYTES never changes. -/
def Obligations.CompletionStateChangesOnlyAsStated : Prop :=
  ∀ s t : State, step s = .next t →
    t.memBytes = s.memBytes ∧
    (t.err ≠ s.err ∨ t.outLen ≠ s.outLen → EngineMoves s ∨ LandsNext s .reset) ∧
    (t.ctx ≠ s.ctx →
      (EngineMoves s ∧ t.err = none ∧
        (decode s.latch = .ok .pInit ∨ decode s.latch = .ok .pAbsorb ∨ decode s.latch = .ok .pFinal)) ∨
      LandsNext s .reset) ∧
    (t.mem ≠ s.mem → EngineMoves s ∨ LandsNext s .reset ∨
      (∃ addr bs, LandsNext s (.host (.mw addr bs))) ∨ ∃ addr n v, LandsNext s (.host (.st addr n v)))

/-- R199: irq is DONE and IE, nothing else; a completion with or without an error, bad_command's too, raises it when IE is 1, an accepted issue,
an acknowledgement, IE <- 0 and reset clear it. -/
def Obligations.InterruptLine : Prop :=
  (∀ s : State, s.irq = true ↔ s.done = true ∧ s.ie = true) ∧
  (∀ (i : Instr) (s t : State), exec i s = .next t → t.irq = s.ie) ∧
  (∀ s t : State, EngineMoves s → step s = .next t → t.irq = s.ie) ∧
  ∀ s t : State, step s = .next t →
    ((∃ v, s.busy = false ∧ LandsNext s (.host (.wr 0x00 8 v))) ∨
      (∃ v, LandsNext s (.host (.wr 0x08 8 v)) ∧ v.toNat / 2 % 2 = 1) ∨
      (∃ v, LandsNext s (.host (.wr 0x10 8 v)) ∧ v.toNat % 2 = 0) ∨ LandsNext s .reset) →
    t.irq = false

/-- R45, R220: a reset puts every register, the latch, the context and the scratch at the values of R45, closes irq,
and leaves MEM_BYTES and, by the model's choice (log 2), the HOST's program; with BUSY = 0, and with an illegal latched
word, which has no output range (log 5), no byte of memory changes. A reset that would abandon a command whose step is
refused (R57, log 6) is refused. -/
def Obligations.ResetRestoresTheTable : Prop :=
  ∀ (s : State) (rest : List Event), Lands s .reset rest →
    (∀ i r, s.busy = true → decode s.latch = .ok i → exec i s = .refused r → step s = .refused r) ∧
    ((∀ i r, s.busy = true → decode s.latch = .ok i → exec i s ≠ .refused r) →
    ∃ t, step s = .next t ∧ t.env.agenda = rest ∧ t.env.hostPos = s.env.hostPos ∧ t.env.seen = s.env.seen ∧
      t.statusWord = 0 ∧ t.ie = false ∧ t.ctr = 1 ∧ t.opr = ⟨0, 0, 0, 0, 0, 0, 0, 0, 0, 0, 0⟩ ∧ t.outLen = 0 ∧
      t.latch = 0 ∧ t.ctx = ⟨false, 0, 0, 0, Vector.replicate 16 0, 0⟩ ∧ t.scratch = Scratch.zero ∧
      t.irq = false ∧ t.cfg = s.cfg ∧
      t = { State.reset with cfg := t.cfg, mem := t.mem, draws := t.draws, env := t.env } ∧
      (s.busy = false ∨ (∀ i, decode s.latch ≠ .ok i) → SameMem s t))

/-- R221: a reset while BUSY = 1 makes each existing byte of the abandoned command's output range a free value of its
own and leaves every other byte (that the range stops at MEM_BYTES is the model's reading, log 5); where the command's
step would be refused, so is the reset, as ResetRestoresTheTable says. -/
def Obligations.ResetAbandonsTheOutput : Prop :=
  ∀ (s : State) (rest : List Event) (i : Instr), Lands s .reset rest → s.busy = true → decode s.latch = .ok i →
    (∀ r, exec i s ≠ .refused r) →
    ∃ t, step s = .next t ∧
      (∀ j < s.outCount i, s.opr.dstPtr.toNat + j < s.memBytes →
        s.draws + j < t.draws ∧ t.mem.read (s.opr.dstPtr.toNat + j) = Config.draw (s.draws + j)) ∧
      ∀ a, ¬(s.opr.dstPtr.toNat ≤ a ∧ a < s.opr.dstPtr.toNat + s.outCount i ∧ a < s.memBytes) →
        t.mem.read a = s.mem.read a

/-- R52, R53: a read gives the bytes of its range in order, and a write sets exactly its range, of every memory; with no
bytes, nothing is read and nothing is written. -/
def Obligations.MemoryReadsWhatWasWritten : Prop :=
  (∀ (m : Memory) (a n : Nat), m.readBytes a n = (List.range n).map fun i => m.read (a + i)) ∧
  ∀ (m : Memory) (a : Nat) (v : List Byte),
    (∀ i, (h : i < v.length) → (m.writeBytes a v).read (a + i) = v[i]) ∧
    (∀ x, ¬(a ≤ x ∧ x < a + v.length) → (m.writeBytes a v).read x = m.read x) ∧
    (v = [] → m.writeBytes a v = m)

/-- The model's canonical form of data memory (log 4): a write keeps it, and memories in it that read alike are equal, so
that equal data memories are equal states. -/
def Obligations.EqualMemoriesAreEqualData : Prop :=
  (∀ (m : Memory) (a : Nat) (v : List Byte), m.wf → (m.writeBytes a v).wf) ∧
  ∀ m m' : Memory, m.wf → m'.wf → (∀ a, m.read a = m'.read a) → m = m'

/-- R41, R43, R50: every step keeps memory within MEM_BYTES, the streaming context's invariant and the zero scratch; and
it keeps memory in its canonical form, which is the model's choice (log 4) and no rule. -/
def Obligations.EveryStepKeepsTheInvariant : Prop :=
  ∀ s t : State, s.Inv → step s = .next t → t.Inv

/-- The invariant holds in State.reset, whose memory and MEM_BYTES are the model's choice (logs 3 and 4). -/
def Obligations.ResetMeetsTheInvariant : Prop := State.reset.Inv
end

