-- ==== Sys2Proof/Laws/Bytes.lean ====
section
/-! SUPPORT. Byte strings, little-endian integers and serialization. -/

namespace Sys2Proof.Machine

@[simp] theorem length_leBytes (x n : Nat) : (leBytes x n).length = n := by
  induction n generalizing x with
  | zero => rfl
  | succ n ih => simp [leBytes, ih]

/-- Byte `i` of `lebytes(x, n)` (R7). -/
@[simp] theorem getElem_leBytes (x n i : Nat) (h : i < (leBytes x n).length) :
    (leBytes x n)[i] = BitVec.ofNat 8 (x / 256 ^ i) := by
  induction n generalizing x i with
  | zero => simp at h
  | succ n ih =>
    cases i with
    | zero => simp [leBytes]
    | succ i =>
      simp only [leBytes, List.getElem_cons_succ]
      rw [ih, Nat.div_div_eq_div_mul, Nat.pow_succ, Nat.mul_comm]

theorem le_lt (bs : List Byte) : le bs < 256 ^ bs.length := by
  induction bs with
  | nil => simp [le]
  | cons b bs ih =>
    have := b.isLt
    simp only [le, List.length_cons, Nat.pow_succ]
    omega

theorem le_append (a b : List Byte) : le (a ++ b) = le a + 256 ^ a.length * le b := by
  induction a with
  | nil => simp [le]
  | cons x a ih =>
    simp only [List.cons_append, le, ih, List.length_cons, Nat.pow_succ]
    ring

@[simp] theorem le_replicate_zero (n : Nat) : le (List.replicate n 0) = 0 := by
  induction n with
  | zero => rfl
  | succ n ih => rw [List.replicate_succ, le, ih]; rfl

/-- The integer of the bytes of an integer. -/
theorem le_leBytes (x n : Nat) : le (leBytes x n) = x % 256 ^ n := by
  induction n generalizing x with
  | zero => simp [leBytes, le, Nat.mod_one]
  | succ n ih =>
    simp only [leBytes, le, ih, BitVec.toNat_ofNat]
    rw [show 256 ^ (n + 1) = 256 * 256 ^ n by rw [Nat.pow_succ, Nat.mul_comm], Nat.mod_mul]

/-- The bytes of the integer of bytes. -/
theorem leBytes_le (bs : List Byte) : leBytes (le bs) bs.length = bs := by
  induction bs with
  | nil => rfl
  | cons b bs ih =>
    have hb := b.isLt
    simp only [List.length_cons, leBytes, le]
    rw [show (b.toNat + 256 * le bs) / 256 = le bs by omega, ih]
    congr 1
    apply BitVec.eq_of_toNat_eq
    simp only [BitVec.toNat_ofNat]
    omega

theorem le_inj {a b : List Byte} (hl : a.length = b.length) (h : le a = le b) : a = b := by
  rw [← leBytes_le a, ← leBytes_le b, hl, h]

@[simp] theorem length_xorBytes (a b : List Byte) : (xorBytes a b).length = min a.length b.length := by
  simp [xorBytes]

@[simp] theorem getElem_xorBytes (a b : List Byte) (i : Nat) (h : i < (xorBytes a b).length) :
    (xorBytes a b)[i] =
      a[i]'(by simp at h; omega) ^^^ b[i]'(by simp at h; omega) := by
  simp [xorBytes]

@[simp] theorem length_pad16 (n : Nat) : (pad16 n).length = (16 - n % 16) % 16 := by simp [pad16]

theorem flatMap_length_four {α : Type} (f : α → List Byte) (hf : ∀ x, (f x).length = 4) (l : List α) :
    (l.flatMap f).length = 4 * l.length := by
  induction l with
  | nil => rfl
  | cons x l ih => simp [List.flatMap_cons, hf, ih]; omega

theorem flatMap_slice_four {α : Type} (f : α → List Byte) (hf : ∀ x, (f x).length = 4) (l : List α) (k : Nat)
    (hk : k < l.length) : slice (l.flatMap f) (4 * k) 4 = f l[k] := by
  induction l generalizing k with
  | nil => simp at hk
  | cons x l ih =>
    cases k with
    | zero => simp [slice, List.flatMap_cons, hf]
    | succ k =>
      have : 4 * (k + 1) = 4 + 4 * k := by omega
      have e := ih k (by simpa using hk)
      simp only [slice, List.flatMap_cons, List.getElem_cons_succ] at e ⊢
      rw [this, ← List.drop_drop, List.drop_left' (hf x), e]

@[simp] theorem length_ser (w : Block) : (ser w).length = 64 := by
  rw [ser, flatMap_length_four _ (by simp)]
  simp

/-- The four bytes of word `k` in the serialization of a vector (R7). -/
theorem slice_ser (w : Block) (k : Nat) (hk : k < 16) : slice (ser w) (4 * k) 4 = leBytes w[k].toNat 4 := by
  rw [ser, flatMap_slice_four _ (by simp) _ _ (by simpa using hk)]
  simp

/-- Byte `4k + i` of the serialization (R7). -/
theorem getElem_ser (w : Block) (k i : Nat) (hk : k < 16) (hi : i < 4) :
    (ser w)[4 * k + i]'(by simp; omega) = BitVec.ofNat 8 (w[k].toNat / 256 ^ i) := by
  have e := slice_ser w k hk
  have h2 : (leBytes w[k].toNat 4)[i]'(by simpa using hi) = BitVec.ofNat 8 (w[k].toNat / 256 ^ i) := by simp
  rw [← h2]
  simp only [← e, slice]
  simp

/-- Word `k` of the little-endian words of a serialized vector is word `k` of the vector. -/
theorem le32_ser (w : Block) (k : Nat) (hk : k < 16) : le32 (ser w) k = w[k] := by
  rw [le32, slice_ser w k hk, le_leBytes]
  apply BitVec.eq_of_toNat_eq
  have := w[k].isLt
  simp only [BitVec.toNat_ofNat]
  omega

theorem getElem_loadBlock (bs : List Byte) (k : Nat) (hk : k < 16) : (loadBlock bs)[k] = le32 bs k := by
  have : k = 0 ∨ k = 1 ∨ k = 2 ∨ k = 3 ∨ k = 4 ∨ k = 5 ∨ k = 6 ∨ k = 7 ∨ k = 8 ∨ k = 9 ∨ k = 10 ∨ k = 11 ∨
      k = 12 ∨ k = 13 ∨ k = 14 ∨ k = 15 := by omega
  rcases this with rfl | rfl | rfl | rfl | rfl | rfl | rfl | rfl | rfl | rfl | rfl | rfl | rfl | rfl | rfl | rfl <;> rfl

/-- Loading a serialized vector gives it back. -/
theorem loadBlock_ser (w : Block) : loadBlock (ser w) = w :=
  Vector.ext fun k hk => by rw [getElem_loadBlock _ _ hk, le32_ser w k hk]

end Sys2Proof.Machine
end

