-- ==== Sys2Proof/Laws/Chacha.lean ====
section
/-! SUPPORT. The ChaCha20 functions: lengths, the bytes of a keystream block, the bytes of the keystream XOR. -/

namespace Sys2Proof.Machine

/-- Byte `4k + i` of the block function's output (R97, R98). -/
theorem getElem_blockFn (s : Block) (k i : Nat) (hk : k < 16) (hi : i < 4) :
    (blockFn s)[4 * k + i]'(by simp [blockFn]; omega) =
      BitVec.ofNat 8 (((perm20 s)[k] + s[k]).toNat / 256 ^ i) := by
  unfold blockFn
  rw [getElem_ser _ k i hk hi]
  simp [feedForward, add32]

@[simp] theorem length_blockFn (s : Block) : (blockFn s).length = 64 := by simp [blockFn]

@[simp] theorem length_keyedBlock (k n : List Byte) (c : Word) : (keyedBlock k n c).length = 64 := by
  simp [keyedBlock]

@[simp] theorem length_oneTimeKey (k n : List Byte) : (oneTimeKey k n).length = 32 := by simp [oneTimeKey]

theorem length_xcryptBlocks (k nonce : List Byte) (n c : Nat) (d : List Byte) :
    (xcryptBlocks k nonce n c d).length = min d.length (64 * n) := by
  induction n generalizing c d with
  | zero => simp [xcryptBlocks]
  | succ n ih => simp [xcryptBlocks, ih]; omega

@[simp] theorem length_xcrypt (k nonce : List Byte) (c : Word) (d : List Byte) :
    (xcrypt k nonce c d).length = d.length := by
  rw [xcrypt, length_xcryptBlocks, ceil64]
  omega

theorem getElem_xcryptBlocks (k nonce : List Byte) (n c : Nat) (d : List Byte) (i : Nat)
    (h : i < (xcryptBlocks k nonce n c d).length) :
    (xcryptBlocks k nonce n c d)[i] =
      d[i]'(by rw [length_xcryptBlocks] at h; omega) ^^^
        (keyedBlock k nonce (BitVec.ofNat 32 (c + i / 64)))[i % 64]'(by simp; omega) := by
  induction n generalizing c d i with
  | zero => simp [xcryptBlocks] at h
  | succ n ih =>
    rw [length_xcryptBlocks] at h
    simp only [xcryptBlocks]
    by_cases hi : i < 64
    · rw [List.getElem_append_left (by simp; omega)]
      simp [Nat.div_eq_of_lt hi, Nat.mod_eq_of_lt hi]
    · have hd : (d.take 64).length = 64 := by simp; omega
      rw [List.getElem_append_right (by simp; omega), ih]
      have e1 : i - 64 + 64 = i := by omega
      have e2 : c + 1 + (i - 64) / 64 = c + i / 64 := by omega
      have e3 : (i - 64) % 64 = i % 64 := by omega
      have hl : (xorBytes (d.take 64) (keyedBlock k nonce (BitVec.ofNat 32 c))).length = 64 := by simp; omega
      have e4 : 64 + (i - 64) = i := by omega
      simp only [hl, e2, e3, e4, List.getElem_drop]

/-- Byte `i` of `xcrypt` (R120): the data byte and the byte of the block with counter `ctr + i / 64`. -/
theorem getElem_xcrypt (k nonce : List Byte) (c : Word) (d : List Byte) (i : Nat) (h : i < (xcrypt k nonce c d).length) :
    (xcrypt k nonce c d)[i] =
      d[i]'(by simpa using h) ^^^
        (keyedBlock k nonce (BitVec.ofNat 32 (c.toNat + i / 64)))[i % 64]'(by simp; omega) :=
  getElem_xcryptBlocks ..

/-- The keystream XOR undoes itself (R123). -/
theorem xcrypt_xcrypt (k nonce : List Byte) (c : Word) (d : List Byte) :
    xcrypt k nonce c (xcrypt k nonce c d) = d := by
  apply List.ext_getElem (by simp)
  intro i h1 h2
  rw [getElem_xcrypt, getElem_xcrypt, BitVec.xor_assoc, BitVec.xor_self, BitVec.xor_zero]

theorem quarterLine_other (x : Block) {a b d j : Fin 16} (n : Nat) (ha : j ≠ a) (hd : j ≠ d) :
    (quarterLine x a b d n)[j] = x[j] := by
  have h1 : a.val ≠ j.val := fun h => ha (Fin.ext h.symm)
  have h2 : d.val ≠ j.val := fun h => hd (Fin.ext h.symm)
  simp only [quarterLine, Fin.getElem_fin]
  rw [Vector.getElem_set_ne _ _ h2, Vector.getElem_set_ne _ _ h1]

/-- One assignment to a word of the state (R92). -/
theorem getElem_set_update (x : Block) (a j : Fin 16) (v : Word) :
    (x.set a v)[j] = Function.update (fun k : Fin 16 => x[k]) a v j := by
  by_cases h : j = a
  · subst h
    rw [Function.update_self, Fin.getElem_fin, Vector.getElem_set_self]
  · rw [Function.update_of_ne h, Fin.getElem_fin, Vector.getElem_set_ne _ _ fun e => h (Fin.ext e.symm)]
    rfl

/-- Everything one line of R92 does, whether or not its indices are distinct: two assignments in order. -/
theorem getElem_quarterLine (x : Block) (a b d j : Fin 16) (n : Nat) :
    (quarterLine x a b d n)[j] =
      let f := Function.update (fun k : Fin 16 => x[k]) a (x[a] + x[b])
      Function.update f d (rotl (f d ^^^ f a) n) j := by
  rw [quarterLine]
  simp only [getElem_set_update]
  rfl

/-- Words other than the four named ones keep their value (R92), whether or not the indices are distinct. -/
theorem quarterRound_other (x : Block) {a b c d j : Fin 16} (ha : j ≠ a) (hb : j ≠ b) (hc : j ≠ c) (hd : j ≠ d) :
    (quarterRound x a b c d)[j] = x[j] := by
  rw [quarterRound, quarterLine_other _ _ hc hb, quarterLine_other _ _ ha hd, quarterLine_other _ _ hc hb,
    quarterLine_other _ _ ha hd]

/-- What one line of R92 writes, for distinct indices. -/
theorem quarterLine_sum (x : Block) {a b d : Fin 16} (n : Nat) (h : a ≠ d) :
    (quarterLine x a b d n)[a] = x[a] + x[b] := by
  have h2 : d.val ≠ a.val := fun e => h (Fin.ext e.symm)
  simp only [quarterLine, Fin.getElem_fin]
  rw [Vector.getElem_set_ne _ _ h2, Vector.getElem_set_self]
  rfl

theorem quarterLine_rot (x : Block) {a b d : Fin 16} (n : Nat) (h : a ≠ d) :
    (quarterLine x a b d n)[d] = rotl (x[d] ^^^ (x[a] + x[b])) n := by
  have h2 : a.val ≠ d.val := fun e => h (Fin.ext e)
  simp only [quarterLine, Fin.getElem_fin]
  rw [Vector.getElem_set_self, Vector.getElem_set_self, Vector.getElem_set_ne _ _ h2]
  rfl

end Sys2Proof.Machine
end

