-- ==== Sys2Proof/Laws/Decode.lean ====
section
/-! SUPPORT. The command word and its fields determine each other. -/

namespace Sys2Proof

theorem cmdFields_word (f : CmdFields) : cmdFields f.word = f := by
  obtain ⟨opc, qa, qb, qc, qd, rsv⟩ := f
  simp only [cmdFields, CmdFields.word, CmdFields.mk.injEq]
  refine ⟨?_, ?_, ?_, ?_, ?_, ?_⟩ <;>
  · apply BitVec.eq_of_getLsbD_eq
    intro i hi
    simp only [BitVec.getLsbD_extractLsb', BitVec.getLsbD_append, hi, decide_true, Bool.true_and]
    repeat' split
    all_goals first | (exfalso; omega) | (congr 1; omega)

theorem word_cmdFields (w : DWord) : (cmdFields w).word = w := by
  apply BitVec.eq_of_getLsbD_eq
  intro i hi
  simp only [cmdFields, CmdFields.word, BitVec.getLsbD_append, BitVec.getLsbD_extractLsb']
  repeat' split
  all_goals rw [decide_eq_true (by omega), Bool.true_and]; congr 1; omega

end Sys2Proof
end

