-- ==== Sys2Proof/Laws/Memory.lean ====
section
/-! SUPPORT. Data memory: reading after writing, and the canonical form. -/

namespace Sys2Proof.Machine

theorem Memory.read_erase (m : Memory) (a x : Nat) :
    (m.erase a).read x = if x = a then Memory.unlisted else m.read x := by
  induction m with
  | nil => simp [Memory.erase, Memory.read]
  | cons c m ih =>
    obtain ⟨k, b⟩ := c
    by_cases hk : k = a
    · subst hk
      have : Memory.erase ((k, b) :: m) k = Memory.erase m k := by simp [Memory.erase]
      rw [this, ih]
      by_cases hx : x = k
      · simp [hx]
      · simp [hx, Memory.read, Ne.symm hx]
    · have : Memory.erase ((k, b) :: m) a = (k, b) :: Memory.erase m a := by simp [Memory.erase, hk]
      rw [this, Memory.read, Memory.read, ih]
      by_cases hx : x = a
      · subst hx; simp [hk]
      · simp [hx]

theorem Memory.read_eq_unlisted {m : Memory} {a : Nat} (h : ∀ c ∈ m, c.1 ≠ a) : m.read a = Memory.unlisted := by
  induction m with
  | nil => rfl
  | cons c m ih =>
    obtain ⟨k, b⟩ := c
    have hk : k ≠ a := h (k, b) (by simp)
    simp [Memory.read, hk, ih fun c hc => h c (by simp [hc])]

theorem Memory.mem_erase {m : Memory} {a : Nat} {c : Host.Cell} : c ∈ m.erase a ↔ c ∈ m ∧ c.1 ≠ a := by
  simp [Memory.erase, List.mem_filter]

theorem Memory.read_insert (m : Memory) (a x : Nat) (v : Byte) (h : ∀ c ∈ m, c.1 ≠ a) :
    (Memory.insert m a v).read x = if x = a then v else m.read x := by
  induction m with
  | nil => simp [Memory.insert, Memory.read, eq_comm]
  | cons c m ih =>
    obtain ⟨k, b⟩ := c
    have hk : k ≠ a := h (k, b) (by simp)
    have ih := ih fun c hc => h c (by simp [hc])
    by_cases hlt : a < k
    · by_cases hx : x = a
      · simp [Memory.insert, hlt, Memory.read, hx]
      · simp [Memory.insert, hlt, Memory.read, hx, Ne.symm hx]
    · simp only [Memory.insert, hlt, if_false, Memory.read, ih]
      by_cases hx : x = a
      · simp [hx, hk]
      · simp [hx]

/-- A byte written is what is read, and no other byte changes (R53), of every list whether canonical or not. -/
theorem Memory.read_write (m : Memory) (a x : Nat) (v : Byte) :
    (m.write a v).read x = if x = a then v else m.read x := by
  unfold Memory.write
  split
  · next h => rw [Memory.read_erase, h]
  · rw [Memory.read_insert _ _ _ _ fun c hc => (Memory.mem_erase.mp hc).2, Memory.read_erase]
    split <;> rfl

theorem Memory.read_writeBytes (m : Memory) (a x : Nat) (bs : List Byte) :
    (m.writeBytes a bs).read x = if h : a ≤ x ∧ x < a + bs.length then bs[x - a] else m.read x := by
  induction bs generalizing m a with
  | nil => simp [Memory.writeBytes]
  | cons b bs ih =>
    rw [Memory.writeBytes, ih]
    by_cases hx : x = a
    · subst hx
      rw [dif_neg (by omega), dif_pos ⟨le_refl _, by simp⟩, Memory.read_write]
      simp
    · by_cases h : a + 1 ≤ x ∧ x < a + 1 + bs.length
      · rw [dif_pos h, dif_pos ⟨by omega, by simp; omega⟩]
        have e : x - a = (x - (a + 1)) + 1 := by omega
        simp [e]
      · rw [dif_neg h, dif_neg (by simp; omega), Memory.read_write, if_neg hx]

theorem Memory.read_writeBytes_outside {m : Memory} {a x : Nat} {bs : List Byte}
    (h : ¬(a ≤ x ∧ x < a + bs.length)) : (m.writeBytes a bs).read x = m.read x := by
  rw [Memory.read_writeBytes, dif_neg h]

theorem Memory.read_writeBytes_inside {m : Memory} {a i : Nat} {bs : List Byte} (h : i < bs.length) :
    (m.writeBytes a bs).read (a + i) = bs[i] := by
  rw [Memory.read_writeBytes, dif_pos ⟨by omega, by omega⟩]
  simp

@[simp] theorem Memory.length_readBytes (m : Memory) (a n : Nat) : (m.readBytes a n).length = n := by
  induction n generalizing a with
  | zero => rfl
  | succ n ih => simp [Memory.readBytes, ih]

@[simp] theorem Memory.getElem_readBytes (m : Memory) (a n i : Nat) (h : i < (m.readBytes a n).length) :
    (m.readBytes a n)[i] = m.read (a + i) := by
  induction n generalizing a i with
  | zero => simp [Memory.readBytes] at h
  | succ n ih =>
    cases i with
    | zero => simp [Memory.readBytes]
    | succ i =>
      simp only [Memory.readBytes, List.getElem_cons_succ]
      rw [ih]
      congr 1
      omega

/-- Two memories that agree on a range give the same bytes of it. -/
theorem Memory.readBytes_congr {m m' : Memory} {a n : Nat} (h : ∀ x, a ≤ x → x < a + n → m.read x = m'.read x) :
    m.readBytes a n = m'.readBytes a n := by
  apply List.ext_getElem (by simp)
  intro i h1 h2
  simp only [Memory.length_readBytes] at h1
  simpa using h (a + i) (by omega) (by omega)

/-- What is written is what is read back (R52, R53). -/
theorem Memory.readBytes_writeBytes (m : Memory) (a : Nat) (bs : List Byte) :
    (m.writeBytes a bs).readBytes a bs.length = bs := by
  apply List.ext_getElem (by simp)
  intro i h1 h2
  rw [Memory.getElem_readBytes, Memory.read_writeBytes_inside h2]

theorem Memory.readBytes_writeBytes_apart {m : Memory} {a b n : Nat} {bs : List Byte}
    (h : ∀ x, b ≤ x → x < b + n → ¬(a ≤ x ∧ x < a + bs.length)) :
    (m.writeBytes a bs).readBytes b n = m.readBytes b n :=
  Memory.readBytes_congr fun x h1 h2 => Memory.read_writeBytes_outside (h x h1 h2)

theorem Memory.mem_insert {m : Memory} {a : Nat} {v : Byte} {c : Host.Cell} (h : c ∈ Memory.insert m a v) :
    c = (a, v) ∨ c ∈ m := by
  induction m with
  | nil => simpa [Memory.insert] using h
  | cons d m ih =>
    obtain ⟨k, b⟩ := d
    unfold Memory.insert at h
    split at h
    · simpa using h
    · rcases List.mem_cons.mp h with rfl | h
      · simp
      · rcases ih h with h | h <;> simp [h]

theorem Memory.erase_wf {m : Memory} (h : m.wf) (a : Nat) : (m.erase a).wf :=
  ⟨h.1.filter _, fun c hc => h.2 c (Memory.mem_erase.mp hc).1⟩

theorem Memory.insert_wf {m : Memory} (h : m.wf) {a : Nat} {v : Byte} (hv : v ≠ Memory.unlisted)
    (ha : ∀ c ∈ m, c.1 ≠ a) : (Memory.insert m a v).wf := by
  induction m with
  | nil => simpa [Memory.insert, Memory.wf] using hv
  | cons c m ih =>
    obtain ⟨k, b⟩ := c
    obtain ⟨h1, h2⟩ := h
    rw [List.pairwise_cons] at h1
    have hk : k ≠ a := ha (k, b) (by simp)
    unfold Memory.insert
    split
    · next hlt =>
      refine ⟨?_, ?_⟩
      · refine List.pairwise_cons.mpr ⟨fun c hc => ?_, List.pairwise_cons.mpr h1⟩
        rcases List.mem_cons.mp hc with rfl | hc
        · exact hlt
        · exact lt_trans hlt (h1.1 c hc)
      · intro c hc
        rcases List.mem_cons.mp hc with rfl | hc
        · exact hv
        · exact h2 c hc
    · next hlt =>
      have ih := ih ⟨h1.2, fun c hc => h2 c (by simp [hc])⟩ fun c hc => ha c (by simp [hc])
      refine ⟨List.pairwise_cons.mpr ⟨fun c hc => ?_, ih.1⟩, ?_⟩
      · rcases Memory.mem_insert hc with rfl | hc
        · simp only; omega
        · exact h1.1 c hc
      · intro c hc
        rcases List.mem_cons.mp hc with rfl | hc
        · exact h2 _ (by simp)
        · exact ih.2 c hc

/-- A write keeps the canonical form. -/
theorem Memory.write_wf {m : Memory} (h : m.wf) (a : Nat) (v : Byte) : (m.write a v).wf := by
  unfold Memory.write
  split
  · exact Memory.erase_wf h a
  · next hv => exact Memory.insert_wf (Memory.erase_wf h a) hv fun c hc => (Memory.mem_erase.mp hc).2

theorem Memory.writeBytes_wf {m : Memory} (h : m.wf) (a : Nat) (bs : List Byte) : (m.writeBytes a bs).wf := by
  induction bs generalizing m a with
  | nil => exact h
  | cons b bs ih => exact ih (Memory.write_wf h a b) (a + 1)

theorem Memory.write_within {m : Memory} {size a : Nat} (h : m.within size) (ha : a < size) (v : Byte) :
    (m.write a v).within size := by
  intro c hc
  unfold Memory.write at hc
  split at hc
  · exact h c (Memory.mem_erase.mp hc).1
  · rcases Memory.mem_insert hc with rfl | hc
    · exact ha
    · exact h c (Memory.mem_erase.mp hc).1

theorem Memory.writeBytes_within {m : Memory} {size a : Nat} {bs : List Byte} (h : m.within size)
    (ha : bs = [] ∨ a + bs.length ≤ size) : (m.writeBytes a bs).within size := by
  induction bs generalizing m a with
  | nil => exact h
  | cons b bs ih =>
    simp only [reduceCtorEq, List.length_cons, false_or] at ha
    exact ih (Memory.write_within h (by omega) b) (.inr (by omega))

theorem Memory.read_of_mem {m : Memory} (h : m.wf) {c : Host.Cell} (hc : c ∈ m) : m.read c.1 = c.2 := by
  induction m with
  | nil => simp at hc
  | cons d m ih =>
    obtain ⟨k, b⟩ := d
    obtain ⟨h1, h2⟩ := h
    rw [List.pairwise_cons] at h1
    rcases List.mem_cons.mp hc with rfl | hc
    · simp [Memory.read]
    · have := h1.1 c hc
      have hne : k ≠ c.1 := by simp only at this; omega
      simp only [Memory.read, hne, if_false]
      exact ih ⟨h1.2, fun c hc => h2 c (by simp [hc])⟩ hc

theorem Memory.mem_of_read {m : Memory} {a : Nat} (h : m.read a ≠ Memory.unlisted) : (a, m.read a) ∈ m := by
  induction m with
  | nil => exact absurd rfl h
  | cons c m ih =>
    obtain ⟨k, b⟩ := c
    by_cases hk : k = a
    · simp [Memory.read, hk]
    · simp only [Memory.read, hk, if_false] at h ⊢
      exact List.mem_cons_of_mem _ (ih h)

/-- In canonical form, memories that read alike are equal. -/
theorem Memory.ext_read {m m' : Memory} (h : m.wf) (h' : m'.wf) (hr : ∀ a, m.read a = m'.read a) : m = m' := by
  have sub : ∀ {x y : Memory}, x.wf → (∀ a, x.read a = y.read a) → ∀ c ∈ x, c ∈ y := by
    intro x y hx hxy c hc
    have e := Memory.read_of_mem hx hc
    have hne : y.read c.1 ≠ Memory.unlisted := by rw [← hxy, e]; exact hx.2 c hc
    have := Memory.mem_of_read hne
    rwa [← hxy, e] at this
  have nodup : ∀ {x : Memory}, x.wf → x.Nodup := fun hx => hx.1.imp fun hab e => by
    rw [e] at hab; exact lt_irrefl _ hab
  have hp : m.Perm m' := (List.perm_ext_iff_of_nodup (nodup h) (nodup h')).mpr fun c =>
    ⟨sub h hr c, sub h' (fun a => (hr a).symm) c⟩
  exact hp.eq_of_pairwise (fun a b _ _ hab hba => absurd hab (by omega)) h.1 h'.1

end Sys2Proof.Machine
end

