-- ==== Sys2Proof/Laws/State.lean ====
section
/-! SUPPORT. One lemma per field per update of the state, true by rfl: later proofs unfold no record update. -/

namespace Sys2Proof.Machine

@[simp] theorem raise_cfg (s : State) (e : CmdError) : (s.raise e).cfg = s.cfg := rfl
@[simp] theorem raise_mem (s : State) (e : CmdError) : (s.raise e).mem = s.mem := rfl
@[simp] theorem raise_opr (s : State) (e : CmdError) : (s.raise e).opr = s.opr := rfl
@[simp] theorem raise_ctr (s : State) (e : CmdError) : (s.raise e).ctr = s.ctr := rfl
@[simp] theorem raise_ie (s : State) (e : CmdError) : (s.raise e).ie = s.ie := rfl
@[simp] theorem raise_busy (s : State) (e : CmdError) : (s.raise e).busy = false := rfl
@[simp] theorem raise_done (s : State) (e : CmdError) : (s.raise e).done = true := rfl
@[simp] theorem raise_result (s : State) (e : CmdError) : (s.raise e).result = false := rfl
@[simp] theorem raise_ovr (s : State) (e : CmdError) : (s.raise e).ovr = s.ovr := rfl
@[simp] theorem raise_err (s : State) (e : CmdError) : (s.raise e).err = some e := rfl
@[simp] theorem raise_outLen (s : State) (e : CmdError) : (s.raise e).outLen = 0 := rfl
@[simp] theorem raise_latch (s : State) (e : CmdError) : (s.raise e).latch = s.latch := rfl
@[simp] theorem raise_ctx (s : State) (e : CmdError) : (s.raise e).ctx = s.ctx := rfl
@[simp] theorem raise_scratch (s : State) (e : CmdError) : (s.raise e).scratch = Scratch.zero := rfl
@[simp] theorem raise_draws (s : State) (e : CmdError) : (s.raise e).draws = s.draws := rfl
@[simp] theorem raise_env (s : State) (e : CmdError) : (s.raise e).env = s.env := rfl

@[simp] theorem complete_cfg (s : State) (n : Nat) (r : Bool) : (s.complete n r).cfg = s.cfg := rfl
@[simp] theorem complete_mem (s : State) (n : Nat) (r : Bool) : (s.complete n r).mem = s.mem := rfl
@[simp] theorem complete_opr (s : State) (n : Nat) (r : Bool) : (s.complete n r).opr = s.opr := rfl
@[simp] theorem complete_ctr (s : State) (n : Nat) (r : Bool) : (s.complete n r).ctr = s.ctr := rfl
@[simp] theorem complete_ie (s : State) (n : Nat) (r : Bool) : (s.complete n r).ie = s.ie := rfl
@[simp] theorem complete_busy (s : State) (n : Nat) (r : Bool) : (s.complete n r).busy = false := rfl
@[simp] theorem complete_done (s : State) (n : Nat) (r : Bool) : (s.complete n r).done = true := rfl
@[simp] theorem complete_result (s : State) (n : Nat) (r : Bool) : (s.complete n r).result = r := rfl
@[simp] theorem complete_ovr (s : State) (n : Nat) (r : Bool) : (s.complete n r).ovr = s.ovr := rfl
@[simp] theorem complete_err (s : State) (n : Nat) (r : Bool) : (s.complete n r).err = none := rfl
@[simp] theorem complete_outLen (s : State) (n : Nat) (r : Bool) : (s.complete n r).outLen = BitVec.ofNat 64 n := rfl
@[simp] theorem complete_latch (s : State) (n : Nat) (r : Bool) : (s.complete n r).latch = s.latch := rfl
@[simp] theorem complete_ctx (s : State) (n : Nat) (r : Bool) : (s.complete n r).ctx = s.ctx := rfl
@[simp] theorem complete_scratch (s : State) (n : Nat) (r : Bool) : (s.complete n r).scratch = Scratch.zero := rfl
@[simp] theorem complete_draws (s : State) (n : Nat) (r : Bool) : (s.complete n r).draws = s.draws := rfl
@[simp] theorem complete_env (s : State) (n : Nat) (r : Bool) : (s.complete n r).env = s.env := rfl

@[simp] theorem writeDst_cfg (s : State) (bs : List Byte) : (s.writeDst bs).cfg = s.cfg := rfl
@[simp] theorem writeDst_mem (s : State) (bs : List Byte) : (s.writeDst bs).mem = s.mem.writeBytes s.opr.dstPtr.toNat bs := rfl
@[simp] theorem writeDst_opr (s : State) (bs : List Byte) : (s.writeDst bs).opr = s.opr := rfl
@[simp] theorem writeDst_ctr (s : State) (bs : List Byte) : (s.writeDst bs).ctr = s.ctr := rfl
@[simp] theorem writeDst_ie (s : State) (bs : List Byte) : (s.writeDst bs).ie = s.ie := rfl
@[simp] theorem writeDst_busy (s : State) (bs : List Byte) : (s.writeDst bs).busy = s.busy := rfl
@[simp] theorem writeDst_done (s : State) (bs : List Byte) : (s.writeDst bs).done = s.done := rfl
@[simp] theorem writeDst_result (s : State) (bs : List Byte) : (s.writeDst bs).result = s.result := rfl
@[simp] theorem writeDst_ovr (s : State) (bs : List Byte) : (s.writeDst bs).ovr = s.ovr := rfl
@[simp] theorem writeDst_err (s : State) (bs : List Byte) : (s.writeDst bs).err = s.err := rfl
@[simp] theorem writeDst_outLen (s : State) (bs : List Byte) : (s.writeDst bs).outLen = s.outLen := rfl
@[simp] theorem writeDst_latch (s : State) (bs : List Byte) : (s.writeDst bs).latch = s.latch := rfl
@[simp] theorem writeDst_ctx (s : State) (bs : List Byte) : (s.writeDst bs).ctx = s.ctx := rfl
@[simp] theorem writeDst_scratch (s : State) (bs : List Byte) : (s.writeDst bs).scratch = s.scratch := rfl
@[simp] theorem writeDst_draws (s : State) (bs : List Byte) : (s.writeDst bs).draws = s.draws := rfl
@[simp] theorem writeDst_env (s : State) (bs : List Byte) : (s.writeDst bs).env = s.env := rfl

@[simp] theorem clearStatus_cfg (s : State) (v : DWord) : (s.clearStatus v).cfg = s.cfg := rfl
@[simp] theorem clearStatus_mem (s : State) (v : DWord) : (s.clearStatus v).mem = s.mem := rfl
@[simp] theorem clearStatus_opr (s : State) (v : DWord) : (s.clearStatus v).opr = s.opr := rfl
@[simp] theorem clearStatus_ctr (s : State) (v : DWord) : (s.clearStatus v).ctr = s.ctr := rfl
@[simp] theorem clearStatus_ie (s : State) (v : DWord) : (s.clearStatus v).ie = s.ie := rfl
@[simp] theorem clearStatus_busy (s : State) (v : DWord) : (s.clearStatus v).busy = s.busy := rfl
@[simp] theorem clearStatus_done (s : State) (v : DWord) : (s.clearStatus v).done = (s.done && !v.getLsbD 1) := rfl
@[simp] theorem clearStatus_result (s : State) (v : DWord) : (s.clearStatus v).result = s.result := rfl
@[simp] theorem clearStatus_ovr (s : State) (v : DWord) : (s.clearStatus v).ovr = (s.ovr && !v.getLsbD 3) := rfl
@[simp] theorem clearStatus_err (s : State) (v : DWord) : (s.clearStatus v).err = s.err := rfl
@[simp] theorem clearStatus_outLen (s : State) (v : DWord) : (s.clearStatus v).outLen = s.outLen := rfl
@[simp] theorem clearStatus_latch (s : State) (v : DWord) : (s.clearStatus v).latch = s.latch := rfl
@[simp] theorem clearStatus_ctx (s : State) (v : DWord) : (s.clearStatus v).ctx = s.ctx := rfl
@[simp] theorem clearStatus_scratch (s : State) (v : DWord) : (s.clearStatus v).scratch = s.scratch := rfl
@[simp] theorem clearStatus_draws (s : State) (v : DWord) : (s.clearStatus v).draws = s.draws := rfl
@[simp] theorem clearStatus_env (s : State) (v : DWord) : (s.clearStatus v).env = s.env := rfl

@[simp] theorem writeCtrl_cfg (s : State) (v : DWord) : (s.writeCtrl v).cfg = s.cfg := rfl
@[simp] theorem writeCtrl_mem (s : State) (v : DWord) : (s.writeCtrl v).mem = s.mem := rfl
@[simp] theorem writeCtrl_opr (s : State) (v : DWord) : (s.writeCtrl v).opr = s.opr := rfl
@[simp] theorem writeCtrl_ctr (s : State) (v : DWord) : (s.writeCtrl v).ctr = s.ctr := rfl
@[simp] theorem writeCtrl_ie (s : State) (v : DWord) : (s.writeCtrl v).ie = v.getLsbD 0 := rfl
@[simp] theorem writeCtrl_busy (s : State) (v : DWord) : (s.writeCtrl v).busy = s.busy := rfl
@[simp] theorem writeCtrl_done (s : State) (v : DWord) : (s.writeCtrl v).done = s.done := rfl
@[simp] theorem writeCtrl_result (s : State) (v : DWord) : (s.writeCtrl v).result = s.result := rfl
@[simp] theorem writeCtrl_ovr (s : State) (v : DWord) : (s.writeCtrl v).ovr = s.ovr := rfl
@[simp] theorem writeCtrl_err (s : State) (v : DWord) : (s.writeCtrl v).err = s.err := rfl
@[simp] theorem writeCtrl_outLen (s : State) (v : DWord) : (s.writeCtrl v).outLen = s.outLen := rfl
@[simp] theorem writeCtrl_latch (s : State) (v : DWord) : (s.writeCtrl v).latch = s.latch := rfl
@[simp] theorem writeCtrl_ctx (s : State) (v : DWord) : (s.writeCtrl v).ctx = s.ctx := rfl
@[simp] theorem writeCtrl_scratch (s : State) (v : DWord) : (s.writeCtrl v).scratch = s.scratch := rfl
@[simp] theorem writeCtrl_draws (s : State) (v : DWord) : (s.writeCtrl v).draws = s.draws := rfl
@[simp] theorem writeCtrl_env (s : State) (v : DWord) : (s.writeCtrl v).env = s.env := rfl

@[simp] theorem advance_cfg (s : State) : (s.advance).cfg = s.cfg := rfl
@[simp] theorem advance_mem (s : State) : (s.advance).mem = s.mem := rfl
@[simp] theorem advance_opr (s : State) : (s.advance).opr = s.opr := rfl
@[simp] theorem advance_ctr (s : State) : (s.advance).ctr = s.ctr := rfl
@[simp] theorem advance_ie (s : State) : (s.advance).ie = s.ie := rfl
@[simp] theorem advance_busy (s : State) : (s.advance).busy = s.busy := rfl
@[simp] theorem advance_done (s : State) : (s.advance).done = s.done := rfl
@[simp] theorem advance_result (s : State) : (s.advance).result = s.result := rfl
@[simp] theorem advance_ovr (s : State) : (s.advance).ovr = s.ovr := rfl
@[simp] theorem advance_err (s : State) : (s.advance).err = s.err := rfl
@[simp] theorem advance_outLen (s : State) : (s.advance).outLen = s.outLen := rfl
@[simp] theorem advance_latch (s : State) : (s.advance).latch = s.latch := rfl
@[simp] theorem advance_ctx (s : State) : (s.advance).ctx = s.ctx := rfl
@[simp] theorem advance_scratch (s : State) : (s.advance).scratch = s.scratch := rfl
@[simp] theorem advance_draws (s : State) : (s.advance).draws = s.draws := rfl
@[simp] theorem advance_env (s : State) : (s.advance).env = ⟨s.env.agenda.tail, s.env.hostPos + 1, s.env.seen, s.env.lag, s.env.pace⟩ := rfl

@[simp] theorem note_cfg (s : State) (x : Seen) : (s.note x).cfg = s.cfg := rfl
@[simp] theorem note_mem (s : State) (x : Seen) : (s.note x).mem = s.mem := rfl
@[simp] theorem note_opr (s : State) (x : Seen) : (s.note x).opr = s.opr := rfl
@[simp] theorem note_ctr (s : State) (x : Seen) : (s.note x).ctr = s.ctr := rfl
@[simp] theorem note_ie (s : State) (x : Seen) : (s.note x).ie = s.ie := rfl
@[simp] theorem note_busy (s : State) (x : Seen) : (s.note x).busy = s.busy := rfl
@[simp] theorem note_done (s : State) (x : Seen) : (s.note x).done = s.done := rfl
@[simp] theorem note_result (s : State) (x : Seen) : (s.note x).result = s.result := rfl
@[simp] theorem note_ovr (s : State) (x : Seen) : (s.note x).ovr = s.ovr := rfl
@[simp] theorem note_err (s : State) (x : Seen) : (s.note x).err = s.err := rfl
@[simp] theorem note_outLen (s : State) (x : Seen) : (s.note x).outLen = s.outLen := rfl
@[simp] theorem note_latch (s : State) (x : Seen) : (s.note x).latch = s.latch := rfl
@[simp] theorem note_ctx (s : State) (x : Seen) : (s.note x).ctx = s.ctx := rfl
@[simp] theorem note_scratch (s : State) (x : Seen) : (s.note x).scratch = s.scratch := rfl
@[simp] theorem note_draws (s : State) (x : Seen) : (s.note x).draws = s.draws := rfl
@[simp] theorem note_env (s : State) (x : Seen) : (s.note x).env = ⟨s.env.agenda, s.env.hostPos, x :: s.env.seen, s.env.lag, s.env.pace⟩ := rfl

@[simp] theorem resetInput_cfg (s : State) : (s.resetInput).cfg = s.cfg := rfl
@[simp] theorem resetInput_mem (s : State) : (s.resetInput).mem = s.mem.writeBytes s.opr.dstPtr.toNat (drawBytes s.draws s.abandonedCount) := rfl
@[simp] theorem resetInput_opr (s : State) : (s.resetInput).opr = OperandRegs.zero := rfl
@[simp] theorem resetInput_ctr (s : State) : (s.resetInput).ctr = 1 := rfl
@[simp] theorem resetInput_ie (s : State) : (s.resetInput).ie = false := rfl
@[simp] theorem resetInput_busy (s : State) : (s.resetInput).busy = false := rfl
@[simp] theorem resetInput_done (s : State) : (s.resetInput).done = false := rfl
@[simp] theorem resetInput_result (s : State) : (s.resetInput).result = false := rfl
@[simp] theorem resetInput_ovr (s : State) : (s.resetInput).ovr = false := rfl
@[simp] theorem resetInput_err (s : State) : (s.resetInput).err = none := rfl
@[simp] theorem resetInput_outLen (s : State) : (s.resetInput).outLen = 0 := rfl
@[simp] theorem resetInput_latch (s : State) : (s.resetInput).latch = 0 := rfl
@[simp] theorem resetInput_ctx (s : State) : (s.resetInput).ctx = PolyCtx.closed := rfl
@[simp] theorem resetInput_scratch (s : State) : (s.resetInput).scratch = Scratch.zero := rfl
@[simp] theorem resetInput_draws (s : State) : (s.resetInput).draws = s.draws + s.abandonedCount := rfl
@[simp] theorem resetInput_env (s : State) : (s.resetInput).env = s.env := rfl

end Sys2Proof.Machine
end

