-- ==== Sys2Proof/Laws/Ops.lean ====
section
/-! SUPPORT. What the shared operations can do, once each: an error, a success with output, a success without. -/

namespace Sys2Proof.Machine

theorem firstError_none {cs : List (Option CmdError)} : firstError cs = none ↔ ∀ c ∈ cs, c = none := by
  induction cs with
  | nil => simp [firstError]
  | cons c cs ih => cases c <;> simp [firstError, ih]

theorem validated_none {s : State} {i : Instr} {work : State → StepResult} (h : s.inputError i = none) :
    s.validated i work = work s := by simp [State.validated, h]

theorem validated_some {s : State} {i : Instr} {work : State → StepResult} {e : CmdError}
    (h : s.inputError i = some e) : s.validated i work = .next (s.raise e) := by simp [State.validated, h]

/-- A command raises its input-validation error, or does its work. -/
theorem validated_cases {s : State} {i : Instr} {work : State → StepResult} :
    (∃ e, s.inputError i = some e ∧ s.validated i work = .next (s.raise e)) ∨
      (s.inputError i = none ∧ s.validated i work = work s) := by
  cases h : s.inputError i with
  | none => exact .inr ⟨rfl, validated_none h⟩
  | some e => exact .inl ⟨e, rfl, validated_some h⟩

theorem emit_next {s : State} {i : Instr} {bs : List Byte} {r : Bool} (h : s.badOverlap i = false) :
    s.emit i bs r = .next ((s.writeDst bs).complete bs.length r) := by simp [State.emit, h]

theorem emit_refused {s : State} {i : Instr} {bs : List Byte} {r : Bool} (h : s.badOverlap i = true) :
    s.emit i bs r = .refused .outputOverlapsInput := by simp [State.emit, h]

/-- A command about to write its output writes it and completes, or is refused for an overlap. -/
theorem emit_cases {s : State} {i : Instr} {bs : List Byte} {r : Bool} :
    (s.badOverlap i = false ∧ s.emit i bs r = .next ((s.writeDst bs).complete bs.length r)) ∨
      (s.badOverlap i = true ∧ s.emit i bs r = .refused .outputOverlapsInput) := by
  cases h : s.badOverlap i with
  | false => exact .inl ⟨rfl, emit_next h⟩
  | true => exact .inr ⟨rfl, emit_refused h⟩

/-- The checks that every command makes last: with no error, all its ranges are valid (R54). -/
theorem ranges_of_noError {s : State} {i : Instr} (h : s.inputError i = none) : s.checkRanges i = none := by
  rw [State.inputError, firstError_none] at h
  cases i <;> exact h _ (by simp [State.checks])

theorem checkRanges_none {s : State} {i : Instr} :
    s.checkRanges i = none ↔ (∀ r ∈ s.inputs i, s.valid r = true) ∧ s.valid (s.output i) = true := by
  simp [State.checkRanges]

/-- A range is valid when it is empty or ends within data memory (R54). -/
theorem valid_iff {s : State} {r : Range} : s.valid r = true ↔ r.len = 0 ∨ r.ptr.toNat + r.len ≤ s.memBytes := by
  simp [State.valid]

theorem meets_false {x y : Range} :
    x.meets y = false ↔
      ∀ a, ¬(x.ptr.toNat ≤ a ∧ a < x.ptr.toNat + x.len ∧ y.ptr.toNat ≤ a ∧ a < y.ptr.toNat + y.len) := by
  simp only [Range.meets, decide_eq_false_iff_not, not_lt]
  constructor
  · intro h a ha; omega
  · intro h
    by_contra hc
    exact h (max x.ptr.toNat y.ptr.toNat) (by omega)

theorem inPlace_iff {x y : Range} : x.inPlace y = true ↔ y.who = .src ∧ y.ptr = x.ptr := by simp [Range.inPlace]

@[simp] theorem output_ptr (s : State) (i : Instr) : (s.output i).ptr = s.opr.dstPtr := rfl
@[simp] theorem output_len (s : State) (i : Instr) : (s.output i).len = s.outCount i := rfl

theorem badOverlap_false {s : State} {i : Instr} :
    s.badOverlap i = false ↔
      ∀ r ∈ s.inputs i, (s.output i).meets r = false ∨ (r.who = .src ∧ r.ptr = s.opr.dstPtr) := by
  simp only [State.badOverlap, List.any_eq_false, Bool.and_eq_true, Bool.not_eq_true', not_and,
    Bool.not_eq_false, inPlace_iff, output_ptr]
  exact forall₂_congr fun r _ => by cases (s.output i).meets r <;> simp

@[simp] theorem length_fetch (s : State) (r : Range) : (s.fetch r).length = r.len := by simp [State.fetch]

/-- The bytes of a range after the output was written: those before, when the output lies apart. -/
theorem fetch_writeDst_apart {s : State} {r : Range} {bs : List Byte}
    (h : Range.meets ⟨.dst, s.opr.dstPtr, bs.length⟩ r = false) : (s.writeDst bs).fetch r = s.fetch r := by
  rw [meets_false] at h
  exact Memory.readBytes_writeBytes_apart fun x h1 h2 hc => h x ⟨hc.1, hc.2, h1, h2⟩

end Sys2Proof.Machine
end

