-- ==== Sys2Proof/Laws/Poly.lean ====
section
/-! SUPPORT. Poly1305: block integers, the accumulator's bound, the streaming context, the comparison. -/

namespace Sys2Proof.Machine

/-- The block integer of R132 and R133 in closed form. -/
theorem blockInt_eq (m : List Byte) : blockInt m = le m + 2 ^ (8 * m.length) := by
  rw [blockInt, le_append, le, le_replicate_zero, Nat.pow_mul]
  simp

theorem polyP_pos : 0 < polyP := by decide

theorem absorbInt_lt (r : BitVec 128) (a n : Nat) : absorbInt r a n < polyP := Nat.mod_lt _ polyP_pos

theorem absorbBlocks_lt (r : BitVec 128) (n : Nat) {a : Nat} (m : List Byte) (ha : a < polyP) :
    absorbBlocks r n a m < polyP := by
  induction n generalizing a m with
  | zero => exact ha
  | succ n ih => exact ih _ (absorbInt_lt ..)

/-- One block more: the last block of `n + 1` is absorbed after the first `n`. -/
theorem absorbBlocks_succ (r : BitVec 128) (n a : Nat) (m : List Byte) :
    absorbBlocks r (n + 1) a m =
      absorbInt r (absorbBlocks r n a m) (blockInt ((m.drop (16 * n)).take 16)) := by
  induction n generalizing a m with
  | zero => simp [absorbBlocks]
  | succ n ih =>
    rw [absorbBlocks, ih, absorbBlocks, List.drop_drop, show 16 + 16 * n = 16 * (n + 1) by omega]

theorem absorbBlocks_append (r : BitVec 128) (n a : Nat) (m x : List Byte) (h : 16 * n ≤ m.length) :
    absorbBlocks r n a (m ++ x) = absorbBlocks r n a m := by
  induction n generalizing a m with
  | zero => rfl
  | succ n ih =>
    rw [absorbBlocks, absorbBlocks, List.take_append_of_le_length (by omega), List.drop_append_of_le_length (by omega),
      ih _ _ (by simp; omega)]

@[simp] theorem length_polyTag (a : Nat) (s : BitVec 128) : (polyTag a s).length = 16 := by simp [polyTag]

@[simp] theorem length_poly1305 (k m : List Byte) : (poly1305 k m).length = 16 := by simp [poly1305]

theorem clamp_idem (r : BitVec 128) : clamp (clamp r) = clamp r := by
  rw [clamp, clamp, BitVec.and_assoc, BitVec.and_self]

theorem clamp_polyR (k : List Byte) : clamp (polyR k) = polyR k := clamp_idem _

theorem orFold_eq_zero (l : List Byte) (acc : Byte) :
    l.foldl (fun a x => a ||| x) acc = 0 ↔ acc = 0 ∧ ∀ x ∈ l, x = 0 := by
  induction l generalizing acc with
  | nil => simp
  | cons x l ih =>
    have h : (acc ||| x) = 0 ↔ acc = 0 ∧ x = 0 := BitVec.or_eq_zero_iff
    rw [List.foldl_cons, ih, h, List.forall_mem_cons, and_assoc]

/-- The comparison of R164 decides equality (R168). -/
theorem ctEqual_iff (a b : List Byte) : ctEqual a b = true ↔ a = b := by
  unfold ctEqual diffBytes
  split
  · next hl =>
    rw [beq_iff_eq, orFold_eq_zero]
    constructor
    · intro h
      apply List.ext_getElem hl
      intro i h1 h2
      have : (xorBytes a b)[i]'(by simp; omega) = 0 := h.2 _ (List.getElem_mem _)
      rw [getElem_xorBytes] at this
      exact BitVec.xor_eq_zero_iff.mp this
    · rintro rfl
      refine ⟨rfl, fun x hx => ?_⟩
      obtain ⟨i, hi, rfl⟩ := List.mem_iff_getElem.mp hx
      simp
  · next hl => exact ⟨fun h => by simp at h, fun h => absurd (by rw [h]) hl⟩

/-- `c` is what the context `c0` becomes when its kept bytes and the new ones together are `m` (R140): full blocks
absorbed in order, the rest kept. Bytes of PB from PBL on do not matter. -/
structure PolyCtx.Holds (c c0 : PolyCtx) (m : List Byte) : Prop where
  pctx : c.pctx = c0.pctx
  pr : c.pr = c0.pr
  ps : c.ps = c0.ps
  acc : c.acc = absorbBlocks c0.pr (m.length / 16) c0.acc m
  pbl : c.pbl.val = m.length % 16
  pb : c.pb.toList.take c.pbl.val = m.drop (16 * (m.length / 16))

theorem holds_start (c : PolyCtx) : c.Holds c (c.pb.toList.take c.pbl.val) := by
  have hl : (c.pb.toList.take c.pbl.val).length = c.pbl.val := by simp
  have h0 : c.pbl.val / 16 = 0 := by omega
  exact ⟨rfl, rfl, rfl, by rw [hl, h0]; rfl, by rw [hl]; omega, by rw [hl, h0]; rfl⟩

theorem holds_absorbByte {c c0 : PolyCtx} {m : List Byte} (h : c.Holds c0 m) (b : Byte) :
    (c.absorbByte b).Holds c0 (m ++ [b]) := by
  have hset : (c.pb.set c.pbl b).toList.take (c.pbl.val + 1) = m.drop (16 * (m.length / 16)) ++ [b] := by
    have e : (c.pb.set c.pbl b).toList = c.pb.toList.set c.pbl b := rfl
    have hl : c.pbl.val < c.pb.toList.length := by simp
    rw [e, ← h.pb, List.take_add_one, List.take_set_of_le (le_refl _), List.getElem?_set_self hl]
    rfl
  by_cases hlt : m.length % 16 + 1 < 16
  · have e1 : (m ++ [b]).length / 16 = m.length / 16 := by simp; omega
    have e2 : (m ++ [b]).length % 16 = m.length % 16 + 1 := by simp; omega
    have hc : c.pbl.val + 1 < 16 := by rw [h.pbl]; exact hlt
    rw [PolyCtx.absorbByte, dif_pos hc]
    refine ⟨h.pctx, h.pr, h.ps, ?_, ?_, ?_⟩
    · rw [e1, absorbBlocks_append _ _ _ _ _ (by omega)]; exact h.acc
    · rw [e2]; exact congrArg (· + 1) h.pbl
    · rw [e1, List.drop_append_of_le_length (by omega)]; exact hset
  · have e1 : (m ++ [b]).length / 16 = m.length / 16 + 1 := by simp; omega
    have e2 : (m ++ [b]).length % 16 = 0 := by simp; omega
    have hc : ¬(c.pbl.val + 1 < 16) := by rw [h.pbl]; exact hlt
    have h16 : c.pbl.val + 1 = 16 := by rw [h.pbl]; omega
    rw [PolyCtx.absorbByte, dif_neg hc]
    refine ⟨h.pctx, h.pr, h.ps, ?_, ?_, ?_⟩
    · rw [h16, List.take_of_length_le (by simp)] at hset
      rw [e1, absorbBlocks_succ, absorbBlocks_append _ _ _ _ _ (by omega)]
      simp only [h.pr, h.acc, hset]
      rw [List.drop_append_of_le_length (by omega), List.take_of_length_le (by simp; omega)]
    · rw [e2]; rfl
    · rw [e1, List.drop_of_length_le (by simp; omega)]; rfl

/-- Everything P.ABSORB does to a context (R140), in whatever chunks the bytes come. -/
theorem holds_absorb {c c0 : PolyCtx} {m : List Byte} (h : c.Holds c0 m) (d : List Byte) :
    (c.absorb d).Holds c0 (m ++ d) := by
  induction d generalizing c m with
  | nil => simpa [PolyCtx.absorb] using h
  | cons b d ih =>
    have := ih (holds_absorbByte h b)
    rwa [List.append_assoc] at this

/-- The tag of an opened context that holds the message is the one-shot tag (R136, R141). -/
theorem holds_tag {c : PolyCtx} {k m : List Byte} (h : c.Holds (.opened k) m) : c.tag = poly1305 k m := by
  have hd : (m.drop (16 * (m.length / 16))).length = m.length % 16 := by simp; omega
  rw [PolyCtx.tag, poly1305, h.ps]
  congr 1
  rw [PolyCtx.finalAcc, h.pb, h.acc, h.pr, h.pbl, polyAcc]
  by_cases h0 : m.length % 16 = 0
  · have : m.drop (16 * (m.length / 16)) = [] := List.eq_nil_of_length_eq_zero (by rw [hd, h0])
    rw [if_pos h0, this]
    rfl
  · have hne : (m.drop (16 * (m.length / 16))).isEmpty = false := by
      rw [List.isEmpty_eq_false_iff]; intro e; rw [e] at hd; simp at hd; omega
    rw [if_neg h0, hne]
    rfl

theorem ctxInv_closed : ctxInv PolyCtx.closed := ⟨fun _ => rfl, fun h => absurd h (by decide)⟩

theorem ctxInv_opened (k : List Byte) : ctxInv (PolyCtx.opened k) :=
  ⟨fun h => absurd h (by simp [PolyCtx.opened]), fun _ => ⟨polyP_pos, fun j _ => by simp [PolyCtx.opened, zeroBuf],
    clamp_polyR k⟩⟩

@[simp] theorem absorbByte_pctx (c : PolyCtx) (b : Byte) : (c.absorbByte b).pctx = c.pctx := by
  unfold PolyCtx.absorbByte; split <;> rfl

@[simp] theorem absorb_pctx (c : PolyCtx) (d : List Byte) : (c.absorb d).pctx = c.pctx := by
  induction d generalizing c with
  | nil => rfl
  | cons b d ih => exact (ih (c.absorbByte b)).trans (by simp)

/-- A byte absorbed into an open context keeps R43. -/
theorem ctxInv_absorbByte {c : PolyCtx} (h : ctxInv c) (hp : c.pctx = true) (b : Byte) : ctxInv (c.absorbByte b) := by
  refine ⟨fun h' => by rw [absorbByte_pctx, hp] at h'; simp at h', fun _ => ?_⟩
  obtain ⟨h1, h2, h3⟩ := h.2 hp
  unfold PolyCtx.absorbByte
  split
  · refine ⟨h1, fun j hj => ?_, h3⟩
    have hj : c.pbl.val + 1 ≤ j.val := hj
    have hne : c.pbl.val ≠ j.val := by omega
    simp only [Fin.getElem_fin, Vector.getElem_set_ne _ _ hne]
    exact h2 j (by omega)
  · exact ⟨absorbInt_lt .., fun j _ => by simp [zeroBuf], h3⟩

theorem ctxInv_absorb {c : PolyCtx} (h : ctxInv c) (hp : c.pctx = true) (d : List Byte) : ctxInv (c.absorb d) := by
  induction d generalizing c with
  | nil => exact h
  | cons b d ih => exact ih (ctxInv_absorbByte h hp b) (by simpa using hp)


end Sys2Proof.Machine
end

