-- ==== Sys2Proof/Laws/Exec.lean ====
section
/-! SUPPORT. What every command can do, said once: the bytes it writes, its RESULT, the context it leaves, and the
three ways it ends. -/

namespace Sys2Proof.Machine

/-- Whether AE.OPEN's tag matches; no other command asks (R166). -/
def authOk (s : State) : Instr → Bool
  | .aeOpen =>
    (openBytes (s.fetch s.keyRange) (s.fetch s.nonceRange) (s.fetch s.srcRange) (s.fetch s.aadRange)).isSome
  | _ => true

/-- The bytes a command writes at DST_PTR when it succeeds. -/
def outBytes (s : State) : Instr → List Byte
  | .ccQr a b c d => ser (quarterRound (loadBlock (s.fetch s.stateRange)) a b c d)
  | .ccDround => ser (doubleRound (loadBlock (s.fetch s.stateRange)))
  | .ccPerm => ser (perm20 (loadBlock (s.fetch s.stateRange)))
  | .ccBlocks => blockFn (loadBlock (s.fetch s.stateRange))
  | .ccBlock => keyedBlock (s.fetch s.keyRange) (s.fetch s.nonceRange) s.ctr
  | .ccOtk => oneTimeKey (s.fetch s.keyRange) (s.fetch s.nonceRange)
  | .ccXor => xcrypt (s.fetch s.keyRange) (s.fetch s.nonceRange) s.ctr (s.fetch s.srcRange)
  | .pFinal => s.ctx.tag
  | .pTag => poly1305 (s.fetch s.keyRange) (s.fetch s.srcRange)
  | .aeSeal => sealBytes (s.fetch s.keyRange) (s.fetch s.nonceRange) (s.fetch s.srcRange) (s.fetch s.aadRange)
  | .aeOpen =>
    (openBytes (s.fetch s.keyRange) (s.fetch s.nonceRange) (s.fetch s.srcRange) (s.fetch s.aadRange)).getD []
  | .pInit | .pAbsorb | .pVerify | .ctEq => []

/-- RESULT of a command that succeeds (R28). -/
def resultOf (s : State) : Instr → Bool
  | .pVerify => polyVerify (s.fetch s.keyRange) (s.fetch s.srcRange) (s.fetch s.auxRange)
  | .ctEq => ctEqual (s.fetch s.srcRange) (s.fetch s.auxRange)
  | .aeOpen => true
  | _ => false

/-- The streaming context a command that succeeds leaves (R36). -/
def ctxAfter (s : State) : Instr → PolyCtx
  | .pInit => .opened (s.fetch s.keyRange)
  | .pAbsorb => s.ctx.absorb (s.fetch s.srcRange)
  | .pFinal => .closed
  | _ => s.ctx

/-- The state in which a command that succeeds leaves the machine. -/
def succeeded (s : State) (i : Instr) : State :=
  (State.writeDst { s with ctx := ctxAfter s i } (outBytes s i)).complete (s.outCount i) (resultOf s i)

theorem length_openBytes {k n e a p : List Byte} (h : openBytes k n e a = some p) : p.length = e.length - 16 := by
  unfold openBytes at h
  simp only at h
  split at h
  · simp only [Option.some.injEq] at h; rw [← h]; simp
  · simp at h

@[simp] theorem length_sealBytes (k n p a : List Byte) : (sealBytes k n p a).length = p.length + 16 := by
  simp [sealBytes, aeadTag]

/-- A command writes exactly as many bytes as R76 says. -/
theorem length_outBytes {s : State} {i : Instr} (h : authOk s i = true) : (outBytes s i).length = s.outCount i := by
  cases i
  case aeOpen =>
    obtain ⟨p, hp⟩ := Option.isSome_iff_exists.mp h
    rw [outBytes, hp, Option.getD_some, length_openBytes hp]
    simp [State.outCount, State.srcRange]
  all_goals simp [outBytes, State.outCount, State.srcRange, PolyCtx.tag]

theorem badOverlap_of_noOutput {s : State} {i : Instr} (h : s.outCount i = 0) : s.badOverlap i = false := by
  rw [badOverlap_false]
  intro r _
  left
  rw [meets_false]
  intro a ha
  simp only [output_ptr, output_len, h] at ha
  omega

/-- What a command does once it is validated. -/
def workOf (i : Instr) (s : State) : StepResult :=
  match i with
  | .pInit | .pAbsorb | .pVerify | .ctEq => State.answer { s with ctx := ctxAfter s i } (resultOf s i)
  | .aeOpen =>
    match openBytes (s.fetch s.keyRange) (s.fetch s.nonceRange) (s.fetch s.srcRange) (s.fetch s.aadRange) with
    | none => .next (s.raise .authFailed)
    | some p => s.emit .aeOpen p true
  | i => State.emit { s with ctx := ctxAfter s i } i (outBytes s i) false

theorem exec_eq (i : Instr) (s : State) : exec i s = s.validated i (workOf i) := by
  cases i <;> rfl

/-- AE.OPEN's work, from what opening the envelope gives (R166). -/
theorem workOf_aeOpen_some {s : State} {p : List Byte}
    (hp : openBytes (s.fetch s.keyRange) (s.fetch s.nonceRange) (s.fetch s.srcRange) (s.fetch s.aadRange) = some p) :
    workOf .aeOpen s = s.emit .aeOpen p true := by
  unfold workOf
  rw [hp]

theorem workOf_aeOpen_none {s : State}
    (hp : openBytes (s.fetch s.keyRange) (s.fetch s.nonceRange) (s.fetch s.srcRange) (s.fetch s.aadRange) = none) :
    workOf .aeOpen s = .next (s.raise .authFailed) := by
  unfold workOf
  rw [hp]

theorem exec_error {s : State} {i : Instr} {e : CmdError} (h : s.inputError i = some e) :
    exec i s = .next (s.raise e) := by rw [exec_eq, validated_some h]

theorem exec_work {s : State} {i : Instr} (h : s.inputError i = none) : exec i s = workOf i s := by
  rw [exec_eq, validated_none h]

theorem badOverlap_ctx (s : State) (i : Instr) (c : PolyCtx) : State.badOverlap { s with ctx := c } i = s.badOverlap i := by
  cases i <;> rfl

/-- A command with no input error, a defined overlap and (AE.OPEN) a matching tag succeeds. -/
theorem exec_success {s : State} {i : Instr} (h : s.inputError i = none) (ho : s.badOverlap i = false)
    (ha : authOk s i = true) : exec i s = .next (succeeded s i) := by
  have hl := length_outBytes ha
  rw [exec_work h, succeeded, ← hl]
  cases i
  case aeOpen =>
    obtain ⟨p, hp⟩ := Option.isSome_iff_exists.mp ha
    have ho' : outBytes s .aeOpen = p := by rw [outBytes, hp, Option.getD_some]
    rw [workOf_aeOpen_some hp, emit_next ho, ho']
    rfl
  case pInit | pAbsorb | pVerify | ctEq => rfl
  all_goals exact emit_next (by rw [badOverlap_ctx, ho])

theorem exec_overlap {s : State} {i : Instr} (h : s.inputError i = none) (ho : s.badOverlap i = true)
    (ha : authOk s i = true) : exec i s = .refused .outputOverlapsInput := by
  rw [exec_work h]
  cases i
  case aeOpen =>
    obtain ⟨p, hp⟩ := Option.isSome_iff_exists.mp ha
    rw [workOf_aeOpen_some hp, emit_refused ho]
  case pInit | pAbsorb | pVerify | ctEq =>
    rw [badOverlap_of_noOutput rfl] at ho
    exact absurd ho (by simp)
  all_goals exact emit_refused (by rw [badOverlap_ctx, ho])

theorem exec_authFailed {s : State} {i : Instr} (h : s.inputError i = none) (ha : authOk s i = false) :
    i = .aeOpen ∧ exec i s = .next (s.raise .authFailed) := by
  rw [exec_work h]
  cases i
  case aeOpen =>
    simp only [authOk, Option.isSome_eq_false_iff, Option.isNone_iff_eq_none] at ha
    exact ⟨rfl, workOf_aeOpen_none ha⟩
  all_goals simp [authOk] at ha

/-- The three ways a command ends: an error, a success, or the refusal of an undefined overlap. -/
theorem exec_cases (i : Instr) (s : State) :
    (∃ e, exec i s = .next (s.raise e) ∧
      (s.inputError i = some e ∨ (s.inputError i = none ∧ authOk s i = false ∧ i = .aeOpen ∧ e = .authFailed))) ∨
    (s.inputError i = none ∧ s.badOverlap i = false ∧ authOk s i = true ∧ exec i s = .next (succeeded s i)) ∨
    (s.inputError i = none ∧ s.badOverlap i = true ∧ authOk s i = true ∧
      exec i s = .refused .outputOverlapsInput) := by
  cases h : s.inputError i with
  | some e => exact .inl ⟨e, exec_error h, .inl rfl⟩
  | none =>
    cases ha : authOk s i with
    | false =>
      obtain ⟨h1, h2⟩ := exec_authFailed h ha
      exact .inl ⟨.authFailed, h2, .inr ⟨rfl, rfl, h1, rfl⟩⟩
    | true =>
      cases ho : s.badOverlap i with
      | false => exact .inr (.inl ⟨rfl, rfl, rfl, exec_success h ho ha⟩)
      | true => exact .inr (.inr ⟨rfl, rfl, rfl, exec_overlap h ho ha⟩)

/-- A next state of a command is its error state or its success state. -/
theorem exec_next {i : Instr} {s t : State} (h : exec i s = .next t) :
    (∃ e, t = s.raise e ∧
      (s.inputError i = some e ∨ (s.inputError i = none ∧ authOk s i = false ∧ i = .aeOpen ∧ e = .authFailed))) ∨
    (s.inputError i = none ∧ s.badOverlap i = false ∧ authOk s i = true ∧ t = succeeded s i) := by
  rcases exec_cases i s with ⟨e, h1, h2⟩ | ⟨h1, h2, h3, h4⟩ | ⟨-, -, -, h4⟩
  · rw [h1, Host.Outcome.next.injEq] at h; exact .inl ⟨e, h.symm, h2⟩
  · rw [h4, Host.Outcome.next.injEq] at h; exact .inr ⟨h1, h2, h3, h.symm⟩
  · rw [h4] at h; cases h

theorem sameRegs_raise (s : State) (e : CmdError) : SameRegs s (s.raise e) := ⟨rfl, rfl, rfl, rfl, rfl, rfl, rfl, rfl⟩

theorem sameRegs_succeeded (s : State) (i : Instr) : SameRegs s (succeeded s i) :=
  ⟨rfl, rfl, rfl, rfl, rfl, rfl, rfl, rfl⟩

theorem raised_raise (s : State) (e : CmdError) : Raised s (s.raise e) e :=
  ⟨⟨rfl, rfl, rfl, rfl, rfl, rfl, sameRegs_raise s e⟩, fun _ => rfl, rfl⟩

theorem checkLength_none {n : Nat} : checkLength n = none ↔ n ≤ maxMessage := by
  unfold checkLength
  split <;> simp <;> omega

/-- No command's output is 2^64 bytes or longer, so OUT_LEN holds its length (R37). -/
theorem outCount_lt {s : State} {i : Instr} (h : s.inputError i = none) : s.outCount i < 2 ^ 64 := by
  have hs := s.opr.srcLen.isLt
  cases i
  case aeSeal =>
    rw [State.inputError, firstError_none] at h
    have := checkLength_none.mp (h (checkLength s.opr.srcLen.toNat) (by simp [State.checks]))
    simp only [State.outCount, maxMessage] at this ⊢
    omega
  all_goals simp only [State.outCount]; omega

theorem ended_succeeded {s : State} {i : Instr} (h : s.inputError i = none) :
    Ended s (succeeded s i) none (resultOf s i) (s.outCount i) := by
  refine ⟨rfl, rfl, rfl, rfl, ?_, rfl, sameRegs_succeeded s i⟩
  have := outCount_lt h
  simp only [succeeded, complete_outLen, BitVec.toNat_ofNat]
  exact Nat.mod_eq_of_lt this

theorem wrote_succeeded (s : State) (i : Instr) : Wrote s (succeeded s i) (outBytes s i) :=
  ⟨fun _ h => Memory.read_writeBytes_inside h, fun _ h => Memory.read_writeBytes_outside h⟩

/-- A command with no input error whose output lies in place or apart from every input range completes. -/
theorem exec_completes {s : State} {i : Instr} (h : s.inputError i = none)
    (ho : ∀ r ∈ s.inputs i, Apart s.opr.dstPtr (s.outCount i) r.ptr r.len ∨ (r.who = .src ∧ s.opr.dstPtr = r.ptr))
    (ha : authOk s i = true) :
    ∃ t, exec i s = .next t ∧ Ended s t none (resultOf s i) (s.outCount i) ∧ t.ctx = ctxAfter s i ∧
      Wrote s t (outBytes s i) := by
  refine ⟨_, exec_success h (badOverlap_false.mpr fun r hr => ?_) ha, ended_succeeded h, rfl, wrote_succeeded s i⟩
  exact (ho r hr).imp (fun h => meets_false.mpr h) fun h => ⟨h.1, h.2.symm⟩

end Sys2Proof.Machine
end

