-- ==== Sys2Proof/Laws/Engine.lean ====
section
/-! SUPPORT. What one step of the whole machine can do: whose turn it is, and what a HOST action leaves. -/

namespace Sys2Proof.Machine

theorem engineTurn_iff {s : State} :
    s.engineTurn = true ↔ s.busy = true ∧ (s.env.lag = 0 ∨ s.env.agenda = []) := by
  simp [State.engineTurn]

theorem step_engine {s : State} (h : s.engineTurn = true) : step s = s.engineStep := by simp [step, h]

theorem step_outside {s : State} (h : s.engineTurn = false) : step s = s.outsideStep := by simp [step, h]

/-- The three kinds of step: the ENGINE's, the idle step at the end of a run, and an event landing. -/
theorem step_cases (s : State) :
    (s.engineTurn = true ∧ step s = s.engineStep) ∨
    (s.engineTurn = false ∧ s.env.agenda = [] ∧ step s = .next s) ∨
    (s.engineTurn = false ∧ ∃ e es, s.env.agenda = e :: es ∧ step s = s.land e) := by
  cases ht : s.engineTurn with
  | true => exact .inl ⟨rfl, step_engine ht⟩
  | false =>
    rw [step_outside ht]
    cases ha : s.env.agenda with
    | nil => exact .inr (.inl ⟨rfl, rfl, by simp [State.outsideStep, ha]⟩)
    | cons e es => exact .inr (.inr ⟨rfl, e, es, rfl, by simp [State.outsideStep, ha]⟩)

theorem engineStep_ok {s : State} {i : Instr} (h : decode s.latch = .ok i) : s.engineStep = exec i s := by
  simp [State.engineStep, h]

theorem engineStep_error {s : State} {e : DecodeError} (h : decode s.latch = .error e) :
    s.engineStep = .next (s.raise .badCommand) := by
  simp [State.engineStep, h]

/-- The ENGINE's step is a command's meaning or bad_command (R73). -/
theorem engineStep_cases (s : State) :
    (∃ i, decode s.latch = .ok i ∧ s.engineStep = exec i s) ∨
    (∃ e, decode s.latch = .error e ∧ s.engineStep = .next (s.raise .badCommand)) := by
  cases h : decode s.latch with
  | ok i => exact .inl ⟨i, rfl, engineStep_ok h⟩
  | error e => exact .inr ⟨e, rfl, engineStep_error h⟩

/-- A reset is refused exactly where the latched command's step would be (R57). -/
theorem resetRefusal_some {s : State} {r : Refusal} :
    s.resetRefusal = some r ↔ s.busy = true ∧ ∃ i, decode s.latch = .ok i ∧ exec i s = .refused r := by
  unfold State.resetRefusal
  cases s.busy with
  | false => simp
  | true =>
    rcases engineStep_cases s with ⟨i, hd, h⟩ | ⟨e, hd, h⟩
    · rw [h, hd]
      cases hx : exec i s <;> simp [hx]
    · simp [h, hd]

theorem resetRefusal_none {s : State} :
    s.resetRefusal = none ↔ ∀ i r, s.busy = true → decode s.latch = .ok i → exec i s ≠ .refused r := by
  rw [Option.eq_none_iff_forall_ne_some]
  simp only [ne_eq, resetRefusal_some]
  exact ⟨fun h i r hb hd hx => h r ⟨hb, i, hd, hx⟩, fun h r ⟨hb, i, hd, hx⟩ => h i r hb hd hx⟩

/-- What scheduling leaves of a state: everything but the lag and the pace. -/
theorem settle_eq (s t : State) :
    ∃ l p, s.settle t = { t with env := ⟨t.env.agenda, t.env.hostPos, t.env.seen, l, p⟩ } := by
  unfold State.settle
  split
  · exact ⟨_, _, rfl⟩
  · exact ⟨_, t.env.pace, rfl⟩

theorem hostAccess_next {s t u : State} {a n : Nat} (h : s.hostAccess a n t = .next u) :
    s.hostRefusal a n = none ∧ u = t := by
  unfold State.hostAccess at h
  split at h
  · cases h
  · next hr => cases h; exact ⟨hr, rfl⟩

theorem hostUnit_next {s t u : State} {a n : Nat} (h : s.hostUnit a n t = .next u) :
    unitSize n = true ∧ s.hostRefusal a n = none ∧ u = t := by
  unfold State.hostUnit at h
  split at h
  · next hu => exact ⟨hu, hostAccess_next h⟩
  · cases h

/-- A HOST data access that is allowed is empty or lies within data memory (R58). -/
theorem hostRefusal_none {s : State} {a n : Nat} (h : s.hostRefusal a n = none) : n = 0 ∨ a + n ≤ s.memBytes := by
  unfold State.hostRefusal at h
  split at h
  · cases h
  · next hn => by_contra hc; exact hn ⟨by omega, by omega⟩

/-- Everything a HOST action can do: write a slot, write bytes of memory, or only read. -/
theorem hostAct_next {s t : State} {a : HostAction} (h : s.hostAct a = .next t) :
    (∃ offset width v r, a = .wr offset width v ∧ slotAt offset width = some r ∧ t = (s.writeSlot v r).advance) ∨
    (∃ (addr : DWord) (bs : List Byte), (bs = [] ∨ addr.toNat + bs.length ≤ s.memBytes) ∧
      (a = .mw addr bs ∨ ∃ v, a = .st addr bs.length v ∧ bs = leBytes v.toNat bs.length) ∧
      t = State.advance { s with mem := s.mem.writeBytes addr.toNat bs }) ∨
    (∃ x, t = s.note x ∨ t = (s.note x).advance) := by
  cases a with
  | wr offset width v =>
    simp only [State.hostAct] at h
    split at h
    · cases h
    · next r hr => cases h; exact .inl ⟨offset, width, v, r, rfl, hr, rfl⟩
  | rd offset width =>
    simp only [State.hostAct] at h
    split at h
    · cases h
    · cases h; exact .inr (.inr ⟨_, .inr rfl⟩)
  | st addr n v =>
    obtain ⟨-, hr, rfl⟩ := hostUnit_next h
    refine .inr (.inl ⟨addr, leBytes v.toNat n, ?_, .inr ⟨v, ?_, ?_⟩, rfl⟩)
    · rcases hostRefusal_none hr with h0 | h0
      · exact .inl (by rw [h0]; rfl)
      · exact .inr (by simpa using h0)
    · simp
    · simp
  | ld addr n =>
    obtain ⟨-, -, rfl⟩ := hostUnit_next h
    exact .inr (.inr ⟨_, .inr rfl⟩)
  | mw addr bs =>
    obtain ⟨hr, rfl⟩ := hostAccess_next h
    refine .inr (.inl ⟨addr, bs, ?_, .inl rfl, rfl⟩)
    rcases hostRefusal_none hr with h0 | h0
    · exact .inl (List.eq_nil_of_length_eq_zero h0)
    · exact .inr h0
  | mr addr n =>
    obtain ⟨-, rfl⟩ := hostAccess_next h
    exact .inr (.inr ⟨_, .inr rfl⟩)
  | wait =>
    simp only [State.hostAct] at h
    split at h
    · cases h; exact .inr (.inr ⟨_, .inl rfl⟩)
    · cases h; exact .inr (.inr ⟨_, .inr rfl⟩)

/-- A write of a slot leaves memory, the context, the scratch, the draws, the parameters and the outside alone. -/
theorem writeSlot_keeps (s : State) (v : DWord) (r : Slot) :
    (s.writeSlot v r).mem = s.mem ∧ (s.writeSlot v r).ctx = s.ctx ∧ (s.writeSlot v r).scratch = s.scratch ∧
      (s.writeSlot v r).draws = s.draws ∧ (s.writeSlot v r).cfg = s.cfg ∧ (s.writeSlot v r).env = s.env := by
  cases r
  case cmd | ctr | operand => simp only [State.writeSlot, State.issue, State.unlessBusy]; split <;> simp
  all_goals simp [State.writeSlot]

@[simp] theorem length_drawBytes (k n : Nat) : (drawBytes k n).length = n := by
  induction n generalizing k with
  | zero => rfl
  | succ n ih => simp [drawBytes, ih]

@[simp] theorem getElem_drawBytes (k n i : Nat) (h : i < (drawBytes k n).length) :
    (drawBytes k n)[i] = Config.draw (k + i) := by
  induction n generalizing k i with
  | zero => simp at h
  | succ n ih =>
    cases i with
    | zero => simp [drawBytes]
    | succ i =>
      simp only [drawBytes, List.getElem_cons_succ]
      rw [ih]
      congr 1
      omega

/-- The bytes a reset leaves free exist (R221). -/
theorem abandoned_within (s : State) :
    s.abandonedCount = 0 ∨ s.opr.dstPtr.toNat + s.abandonedCount ≤ s.memBytes := by
  unfold State.abandonedCount
  split
  · split
    · omega
    · exact .inl rfl
  · exact .inl rfl

/-- The event that lands is the step (R81, R220). -/
theorem step_lands {s : State} {e : Event} {rest : List Event} (h : Lands s e rest) : step s = s.land e := by
  have ht : s.engineTurn = false := by
    rw [← Bool.not_eq_true, engineTurn_iff, h.1]
    rintro ⟨h1, h2⟩
    have h3 := h.2.resolve_left (by rw [h1]; simp)
    rcases h2 with h2 | h2
    · exact h3 h2
    · cases h2
  rw [step_outside ht, State.outsideStep, h.1]

/-- A reset that lands (R220): refused for the latched command (R57), or every register as in R45. -/
theorem step_reset {s : State} {rest : List Event} (h : Lands s .reset rest) :
    (∃ r, s.resetRefusal = some r ∧ step s = .refused r) ∨
    (s.resetRefusal = none ∧ ∃ env, env.agenda = rest ∧ env.hostPos = s.env.hostPos ∧ env.seen = s.env.seen ∧
      step s = .next { s.resetInput with env := env }) := by
  rw [step_lands h, State.land]
  split
  · next r hr => exact .inl ⟨r, hr, rfl⟩
  · next hr =>
    obtain ⟨l, p, e⟩ := settle_eq s { s.resetInput with env := { s.env with agenda := s.env.agenda.tail } }
    rw [e]
    exact .inr ⟨hr, ⟨s.env.agenda.tail, s.env.hostPos, s.env.seen, l, p⟩, by simp [h.1], rfl, rfl, rfl⟩

theorem lands_of_outside {s : State} {e : Event} {es : List Event} (ht : s.engineTurn = false)
    (ha : s.env.agenda = e :: es) : LandsNext s e := by
  refine ⟨es, ha, ?_⟩
  by_contra hc
  rw [not_or, not_not] at hc
  rw [engineTurn_iff.mpr ⟨by simpa using hc.1, .inl hc.2⟩] at ht
  cases ht

theorem slotAt_some {offset width : Nat} {r : Slot} (h : slotAt offset width = some r) :
    width = 8 ∧ offset % 8 = 0 ∧ offset < 256 ∧ r = slotOfIndex (offset / 8) := by
  unfold slotAt at h
  split at h
  · next hc => cases h; exact ⟨hc.1, hc.2.1, hc.2.2, rfl⟩
  · cases h

/-- Everything a step can do: the ENGINE's step, nothing but to what lies outside the CORE, a reset, a slot written,
or bytes of memory written by the HOST. -/
theorem step_next {s t : State} (h : step s = .next t) :
    (EngineMoves s ∧ s.engineStep = .next t) ∨
    (∃ env, t = { s with env := env }) ∨
    (LandsNext s .reset ∧ ∃ env, t = { s.resetInput with env := env }) ∨
    (∃ offset v r env, LandsNext s (.host (.wr offset 8 v)) ∧ slotAt offset 8 = some r ∧
      t = { s.writeSlot v r with env := env }) ∨
    (∃ (addr : DWord) (bs : List Byte) (env : Env), (bs = [] ∨ addr.toNat + bs.length ≤ s.memBytes) ∧
      (LandsNext s (.host (.mw addr bs)) ∨ ∃ v, LandsNext s (.host (.st addr bs.length v))) ∧
      t = { s with mem := s.mem.writeBytes addr.toNat bs, env := env }) := by
  rcases step_cases s with ⟨h1, h2⟩ | ⟨-, -, h'⟩ | ⟨ht, e, es, ha, h'⟩
  · exact .inl ⟨engineTurn_iff.mp h1, h2 ▸ h⟩
  · rw [h'] at h; cases h; exact .inr (.inl ⟨s.env, rfl⟩)
  · have hl := lands_of_outside ht ha
    rw [h'] at h
    cases e with
    | reset =>
      obtain ⟨l, p, e⟩ := settle_eq s { s.resetInput with env := { s.env with agenda := s.env.agenda.tail } }
      simp only [State.land, e] at h
      split at h
      · cases h
      · cases h
        exact .inr (.inr (.inl ⟨hl, _, rfl⟩))
    | host a =>
      simp only [State.land] at h
      split at h
      · next u hu =>
        obtain ⟨l, p, e⟩ := settle_eq s u
        rw [e] at h
        cases h
        rcases hostAct_next hu with ⟨o, w, v, r, rfl, hr, rfl⟩ | ⟨addr, bs, hb, hbs, rfl⟩ | ⟨x, rfl | rfl⟩
        · obtain ⟨rfl, -⟩ := slotAt_some hr
          exact .inr (.inr (.inr (.inl ⟨o, v, r, _, hl, hr, rfl⟩)))
        · refine .inr (.inr (.inr (.inr ⟨addr, bs, _, hb, ?_, rfl⟩)))
          rcases hbs with rfl | ⟨v, rfl, -⟩
          · exact .inl hl
          · exact .inr ⟨_, hl⟩
        · exact .inr (.inl ⟨_, rfl⟩)
        · exact .inr (.inl ⟨_, rfl⟩)
      · cases h
      · cases h

/-- A write of a slot changes none of what only a completion writes (R28, R30, R37). -/
theorem writeSlot_completion (s : State) (v : DWord) (r : Slot) :
    (s.writeSlot v r).result = s.result ∧ (s.writeSlot v r).err = s.err ∧ (s.writeSlot v r).outLen = s.outLen := by
  cases r
  case cmd | ctr | operand => simp only [State.writeSlot, State.issue, State.unlessBusy]; split <;> simp
  all_goals simp [State.writeSlot]

/-- What every ENGINE step does, whatever the command (R193, R197). -/
theorem engineStep_next {s t : State} (h : s.engineStep = .next t) :
    t.busy = false ∧ t.done = true ∧ t.scratch = Scratch.zero ∧ SameRegs s t := by
  rcases engineStep_cases s with ⟨i, -, h'⟩ | ⟨e, -, h'⟩
  · rw [h'] at h
    rcases exec_next h with ⟨e', rfl, -⟩ | ⟨-, -, -, rfl⟩
    · exact ⟨rfl, rfl, rfl, sameRegs_raise s _⟩
    · exact ⟨rfl, rfl, rfl, sameRegs_succeeded s i⟩
  · rw [h'] at h; cases h; exact ⟨rfl, rfl, rfl, sameRegs_raise s _⟩

end Sys2Proof.Machine
end

