-- ==== Sys2Proof/Laws/Flags.lean ====
section
/-! SUPPORT. STATUS and CTRL as integers. -/

namespace Sys2Proof.Machine

theorem getLsbD_eq_decide (v : DWord) (n : Nat) : v.getLsbD n = decide (v.toNat / 2 ^ n % 2 = 1) := by
  rw [BitVec.getLsbD, Nat.testBit_eq_decide_div_mod_eq]

theorem toNat_append_add {m n : Nat} (x : BitVec m) (y : BitVec n) : (x ++ y).toNat = x.toNat * 2 ^ n + y.toNat := by
  rw [BitVec.toNat_append, ← Nat.shiftLeft_add_eq_or_of_lt y.isLt, Nat.shiftLeft_eq]

/-- STATUS bit by bit (spec/10_state.md R25). -/
theorem statusWord_toNat (s : State) :
    s.statusWord.toNat = s.busy.toNat + 2 * s.done.toNat + 4 * s.result.toNat + 8 * s.ovr.toNat +
      16 * s.ctx.pctx.toNat + 256 * (errCode s.err).toNat := by
  unfold State.statusWord
  have h48 : (0 : BitVec 48).toNat = 0 := rfl
  have h3 : (0 : BitVec 3).toNat = 0 := rfl
  simp only [toNat_append_add, BitVec.toNat_ofBool, h48, h3]
  omega

/-- Bit 0 of STATUS is BUSY (R26, R81). -/
theorem statusWord_busy (s : State) : s.statusWord.getLsbD 0 = s.busy := by
  rw [getLsbD_eq_decide, statusWord_toNat]
  cases s.busy <;> simp <;> omega

end Sys2Proof.Machine
end

