-- ==== Sys2Proof/Laws/PerInstr.lean ====
section
/-! SUPPORT. The family of laws that hold of every command as syntax, one lemma per constructor. -/

namespace Sys2Proof.Laws.LegalWord

/-- A command's word is legal (spec/30_encoding.md R73) and matches its row of the opcode map (R77). -/
def Statement (i : Instr) : Prop := i.wellFormed = true ∧ encode i &&& i.tableMask = i.tableMatch

theorem ccQr (a b c d : Fin 16) : Statement (.ccQr a b c d) := by
  refine ⟨rfl, ?_⟩
  simp only [encode, CmdFields.word, Instr.fields, Instr.indices, Instr.opc, Instr.tableMask, Instr.tableMatch]
  generalize (BitVec.ofFin a : BitVec 4) = a
  generalize (BitVec.ofFin b : BitVec 4) = b
  generalize (BitVec.ofFin c : BitVec 4) = c
  generalize (BitVec.ofFin d : BitVec 4) = d
  apply BitVec.eq_of_getLsbD_eq
  intro i hi
  rw [BitVec.getLsbD_and]
  simp only [BitVec.getLsbD_append]
  interval_cases i <;> simp
theorem ccDround : Statement .ccDround := ⟨by decide, by decide⟩
theorem ccPerm : Statement .ccPerm := ⟨by decide, by decide⟩
theorem ccBlocks : Statement .ccBlocks := ⟨by decide, by decide⟩
theorem ccBlock : Statement .ccBlock := ⟨by decide, by decide⟩
theorem ccOtk : Statement .ccOtk := ⟨by decide, by decide⟩
theorem ccXor : Statement .ccXor := ⟨by decide, by decide⟩
theorem pInit : Statement .pInit := ⟨by decide, by decide⟩
theorem pAbsorb : Statement .pAbsorb := ⟨by decide, by decide⟩
theorem pFinal : Statement .pFinal := ⟨by decide, by decide⟩
theorem pTag : Statement .pTag := ⟨by decide, by decide⟩
theorem pVerify : Statement .pVerify := ⟨by decide, by decide⟩
theorem aeSeal : Statement .aeSeal := ⟨by decide, by decide⟩
theorem aeOpen : Statement .aeOpen := ⟨by decide, by decide⟩
theorem ctEq : Statement .ctEq := ⟨by decide, by decide⟩

end Sys2Proof.Laws.LegalWord
end

