-- ==== Sys2Proof/Tests/Slice0.lean ====
section
/-! SUPPORT. Tests against the vectors of spec/95_test_vectors.md (the section is named at each), the smoke of
WellFormed, and for every statement with hypotheses a state that meets them. -/

namespace Sys2Proof.Tests

open Sys2Proof Sys2Proof.Machine

/-! ## Small states -/

/-- `n` bytes counting up from `b`. -/
def count (b n : Nat) : List Byte := (List.range n).map fun i => BitVec.ofNat 8 (b + i)

/-- Section 1.1: the nonce `00 00 00 09 00 00 00 4a 00 00 00 00`. -/
def nonce1 : List Byte := [0, 0, 0, 9, 0, 0, 0, 0x4a, 0, 0, 0, 0]

/-- Section 1.3: the Poly1305 key. -/
def macKey : List Byte :=
  [0x85, 0xd6, 0xbe, 0x78, 0x57, 0x55, 0x6d, 0x33, 0x7f, 0x44, 0x52, 0xfe, 0x42, 0xd5, 0x06, 0xa8,
   0x01, 0x03, 0x80, 0x8a, 0xfb, 0x0d, 0xb2, 0xfd, 0x4a, 0xbf, 0xf6, 0xaf, 0x41, 0x49, 0xf5, 0x1b]

/-- Section 1.3: the 34 message bytes. -/
def macMessage : List Byte :=
  [0x43, 0x72, 0x79, 0x70, 0x74, 0x6f, 0x67, 0x72, 0x61, 0x70, 0x68, 0x69, 0x63, 0x20, 0x46, 0x6f, 0x72,
   0x75, 0x6d, 0x20, 0x52, 0x65, 0x73, 0x65, 0x61, 0x72, 0x63, 0x68, 0x20, 0x47, 0x72, 0x6f, 0x75, 0x70]

/-- Section 1.3: the tag. -/
def macTag : List Byte :=
  [0xa8, 0x06, 0x1d, 0xc1, 0x30, 0x51, 0x36, 0xc6, 0xc2, 0x2b, 0x8b, 0xaf, 0x0c, 0x01, 0x27, 0xa9]

/-- The registers of the start state of section 2.6. -/
def regs : OperandRegs := ⟨0x100, 32, 0x120, 12, 0x200, 64, 0x300, 0, 0x340, 16, 0x400⟩

/-- The start state of section 2.6 with key, nonce and source bytes of choice. -/
def start (key nonce src : List Byte) : State :=
  { State.reset with
    mem := ((Memory.writeBytes [] 0x100 key).writeBytes 0x120 nonce).writeBytes 0x200 src
    opr := regs }

/-- The start state of section 2.6. -/
def start0 : State := start (count 0 32) nonce1 []

/-- The start state with the key, nonce and message length of section 1.3. -/
def startMac : State :=
  { start macKey [] macMessage with opr := { regs with srcLen := 34, auxLen := 16 } }

/-- `s` with other operand registers. -/
def withRegs (s : State) (o : OperandRegs) : State := { s with opr := o }

/-- `s` with an open context. -/
def opened (s : State) : State := { s with ctx := .opened (count 0 32) }

/-- `s` with a command in the latch, the ENGINE's turn next (R71, R72). -/
def latched (s : State) (i : Instr) : State := s.latched 64 (encode i).toNat

/-- `s` with one event about to land. -/
def facing (s : State) (e : Event) : State := { s with env := ⟨[e], 0, [], 1, []⟩ }

theorem lands_facing (s : State) (e : Event) : Lands (facing s e) e [] := ⟨rfl, .inr Nat.one_ne_zero⟩

/-- A view of the next state. -/
def look {α : Type} (f : State → α) : StepResult → Option α
  | .next s => some (f s)
  | .fault _ => none
  | .refused _ => none

/-- STATUS and OUT_LEN after a step. -/
def ends (s : State) : Nat × Nat := (s.statusWord.toNat, s.outLen.toNat)

/-- The first sixteen words of a list. -/
def block (l : List Nat) : Block := Vector.ofFn fun i => BitVec.ofNat 32 (l.getD i.val 0)

/-! ## WellFormed: each check refuses an ill-formed term -/

/-- Section 2.1: OPC 0x07 is unassigned. -/
theorem test_wellFormed_opcode :
    CmdFields.opcAssigned ⟨0x07, 0, 0, 0, 0, 0⟩ = false ∧ CmdFields.wellFormed ⟨0x07, 0, 0, 0, 0, 0⟩ = false := by decide
/-- Section 2.1: CC.QR 0,1,2,3 with bit 24 set. -/
theorem test_wellFormed_reserved :
    CmdFields.rsvZero ⟨0x01, 0, 1, 2, 3, 1⟩ = false ∧ CmdFields.wellFormed ⟨0x01, 0, 1, 2, 3, 1⟩ = false := by decide
/-- Section 2.1: CC.BLOCK with bit 8 set. -/
theorem test_wellFormed_indices :
    CmdFields.indicesAllowed ⟨0x05, 1, 0, 0, 0, 0⟩ = false ∧ CmdFields.wellFormed ⟨0x05, 1, 0, 0, 0, 0⟩ = false := by
  decide

/-! ## Decode: the words of section 2.1, every constructor -/

theorem test_decode_ccQr :
    decode 0x0000000000C84001 = .ok (.ccQr 0 4 8 12) ∧ decode 0x0000000000321001 = .ok (.ccQr 0 1 2 3) ∧
    decode 0x0000000000FFFF01 = .ok (.ccQr 15 15 15 15) ∧ decode 0x0000000000000101 = .ok (.ccQr 1 0 0 0) :=
  ⟨rfl, rfl, rfl, rfl⟩
theorem test_decode_chacha :
    decode 0x0000000000000002 = .ok .ccDround ∧ decode 0x0000000000000003 = .ok .ccPerm ∧
    decode 0x0000000000000004 = .ok .ccBlocks ∧ decode 0x0000000000000005 = .ok .ccBlock ∧
    decode 0x0000000000000006 = .ok .ccOtk ∧ decode 0x0000000000000010 = .ok .ccXor :=
  ⟨rfl, rfl, rfl, rfl, rfl, rfl⟩
theorem test_decode_poly :
    decode 0x0000000000000020 = .ok .pInit ∧ decode 0x0000000000000021 = .ok .pAbsorb ∧
    decode 0x0000000000000022 = .ok .pFinal ∧ decode 0x0000000000000023 = .ok .pTag ∧
    decode 0x0000000000000024 = .ok .pVerify := ⟨rfl, rfl, rfl, rfl, rfl⟩
theorem test_decode_aead :
    decode 0x0000000000000030 = .ok .aeSeal ∧ decode 0x0000000000000031 = .ok .aeOpen ∧
    decode 0x0000000000000032 = .ok .ctEq := ⟨rfl, rfl, rfl⟩
theorem test_decode_illegal :
    decode 0x0000000000000000 = .error .unassignedOpcode ∧ decode 0x0000000000000007 = .error .unassignedOpcode ∧
    decode 0x00000000000000FF = .error .unassignedOpcode ∧ decode 0x0000000001000001 = .error .reservedBitSet ∧
    decode 0x0000000001321001 = .error .reservedBitSet ∧ decode 0x0000000000000105 = .error .reservedBitSet ∧
    decode 0x8000000000000030 = .error .reservedBitSet := ⟨rfl, rfl, rfl, rfl, rfl, rfl, rfl⟩
theorem test_decodeTableWord : decodeTableWord 64 0x321001 = some (.ccQr 0 1 2 3) ∧ decodeTableWord 8 0x05 = some .ccBlock :=
  ⟨rfl, rfl⟩

/-! ## The block function: sections 1.1 and 2.2 -/

/-- Section 1.1: the initial state. -/
def state1 : Block :=
  block [0x61707865, 0x3320646e, 0x79622d32, 0x6b206574, 0x03020100, 0x07060504, 0x0b0a0908, 0x0f0e0d0c,
    0x13121110, 0x17161514, 0x1b1a1918, 0x1f1e1d1c, 0x00000001, 0x09000000, 0x4a000000, 0x00000000]

theorem test_init : initBlock (count 0 32) 1 nonce1 = state1 := by decide +kernel
/-- Section 2.2, the quarter-round rows. -/
theorem test_quarterRound :
    quarterRound (block [0x11111111, 0x01020304, 0x9b8d6f43, 0x01234567]) 0 1 2 3 =
      block [0xea2a92f4, 0xcb1cf8ce, 0x4581472e, 0x5881c4bb] ∧
    quarterRound (block [0x80000000, 0x00000001, 0, 0]) 0 1 2 3 =
      block [0x98001001, 0xc8c8cc0c, 0x01918198, 0x01900198] := by decide +kernel
/-- Section 2.2, repeated indices. -/
theorem test_quarterRound_repeated :
    quarterRound (block [1]) 0 0 0 0 = block [0] ∧
      quarterRound (block [1, 2]) 0 1 0 1 = block [0x01013303, 0x00980180] := by decide +kernel
/-- Section 2.2, QR(2, 7, 8, 13) on a whole state, as CC.QR from memory to memory. -/
theorem test_ccQr :
    look (fun t => (ends t, loadBlock (bytesAt t 0x400 64)))
        (exec (.ccQr 2 7 8 13) (start [] []
          (ser (block [0x879531e0, 0xc5ecf37d, 0x516461b1, 0xc9a62f8a, 0x44c20ef3, 0x3390af7f, 0xd9fc690b, 0x2a5f714c,
            0x53372767, 0xb00a5631, 0x974c541a, 0x359e9963, 0x5c971061, 0x3d631689, 0x2098d9d6, 0x91dbd320])))) =
      some ((0x2, 64),
        block [0x879531e0, 0xc5ecf37d, 0xbdb886dc, 0xc9a62f8a, 0x44c20ef3, 0x3390af7f, 0xd9fc690b, 0xcfacafd2,
          0xe46bea80, 0xb00a5631, 0x974c541a, 0x359e9963, 0x5c971061, 0xccc07c79, 0x2098d9d6, 0x91dbd320]) := by
  decide +kernel
/-- Section 1.1: one column round, and CC.DROUND in place. -/
theorem test_columnRound :
    columnRound state1 =
      block [0xabbaa25c, 0x1efa51ea, 0x7354fbdf, 0x83d2dc69, 0x3a465196, 0x1c7e64f6, 0xb12fb628, 0xf05b6976,
        0x6b3ca454, 0x08eb14b1, 0xbf8a9ac9, 0xe444df3b, 0xdec62ed2, 0x8862cc77, 0x6e35b345, 0x52a647f1] := by
  decide +kernel
theorem test_ccDround :
    look (fun t => loadBlock (bytesAt t 0x200 64))
        (exec .ccDround (withRegs (start [] [] (ser state1)) { regs with dstPtr := 0x200 })) =
      some (block [0xcd52e917, 0x85ab03b4, 0xb3457395, 0xf96de7dd, 0xc4b7cd22, 0x5c2e187a, 0xc95eb461, 0x316c801a,
        0x7bf7d740, 0x7eddd644, 0xf1a1bdf5, 0x761246ca, 0x6b0d58a3, 0x6798471a, 0xd737f167, 0xf173888d]) := by
  decide +kernel
/-- Section 1.1: CC.PERM, read at both ends of the state. -/
theorem test_ccPerm :
    look (fun t => (wordAt t 0x400, wordAt t 0x43C)) (exec .ccPerm (start [] [] (ser state1))) =
      some (0x837778ab, 0x4e3c50a2) := by decide +kernel
/-- Section 1.1: CC.BLOCKS, read at both ends. -/
theorem test_ccBlocks :
    look (fun t => (wordAt t 0x400, wordAt t 0x438)) (exec .ccBlocks (start [] [] (ser state1))) =
      some (0xe4e7f110, 0xe883d0cb) := by decide +kernel
/-- Section 1.1: CC.BLOCK's last sixteen bytes, as the rules give them (C1). -/
theorem test_ccBlock :
    look (fun t => (ends t, bytesAt t 0x430 16)) (exec .ccBlock start0) =
      some ((0x2, 64), [0xb5, 0x12, 0x9c, 0xd1, 0xde, 0x16, 0x4e, 0xb9, 0xcb, 0xd0, 0x83, 0xe8, 0xa2, 0x50, 0x3c, 0x4e]) := by
  decide +kernel
/-- Section 1.4: CC.OTK, bytes 16 to 31 (C2); the counter register holds 1 and does not matter. -/
theorem test_ccOtk :
    look (fun t => (ends t, bytesAt t 0x410 16))
        (exec .ccOtk (start (count 0x80 32) [0, 0, 0, 0, 0, 1, 2, 3, 4, 5, 6, 7] [])) =
      some ((0x2, 32), [0xa8, 0x33, 0xb6, 0x37, 0xe3, 0xfd, 0x0d, 0xa5, 0x08, 0xdb, 0xb8, 0xe2, 0xfd, 0xd1, 0xa6, 0x46]) := by
  decide +kernel

/-! ## The keystream XOR: section 2.3 -/

/-- The last block of the counter range, and one block too many. -/
theorem test_ccXor :
    look (fun t => (ends t, bytesAt t 0x400 16)) (exec .ccXor { start0 with ctr := 0xffffffff }) =
      some ((0x2, 64), [0xff, 0x29, 0x41, 0xb8, 0xd7, 0x40, 0xf6, 0xcb, 0xb5, 0x09, 0x36, 0xbf, 0x99, 0x7e, 0xbd, 0x52]) := by
  decide +kernel
theorem test_ccXor_checks :
    look ends (exec .ccXor (withRegs { start0 with ctr := 0xffffffff } { regs with srcLen := 65 })) = some (0x402, 0) ∧
    look ends (exec .ccXor (withRegs { start0 with ctr := 0xffffffff }
      { regs with srcLen := 0, srcPtr := 0xffffffffffffffff, dstPtr := 0xffffffffffffffff })) = some (0x2, 0) ∧
    look ends (exec .ccXor (withRegs start0 { regs with srcLen := 274877906880 })) = some (0x802, 0) ∧
    look ends (exec .ccXor (withRegs { start0 with ctr := 2 } { regs with srcLen := 274877906880 })) = some (0x402, 0) ∧
    look ends (exec .ccXor (withRegs { start0 with ctr := 0 } { regs with srcLen := 274877906881 })) = some (0x402, 0) ∧
    look ends (exec .ccXor (withRegs start0 { regs with srcLen := 2, srcPtr := 0xffffffffffffffff })) = some (0x802, 0) := by
  decide +kernel

/-! ## Poly1305: sections 1.3 and 2.4 -/

theorem test_clamp : polyR macKey = 0x0806d5400e52447c036d555408bed685 ∧ polyS macKey = 0x1bf54941aff6bf4afdb20dfb8a800301 := by
  decide +kernel
theorem test_poly1305_corners :
    poly1305 (leBytes 2 32) (List.replicate 32 0xff) = leBytes 9 16 ∧
    poly1305 (leBytes 1 16 ++ leBytes (2 ^ 128 - 1) 16) [1] = leBytes 0x100 16 ∧
    poly1305 (leBytes 1 32) (List.replicate 15 1) = List.replicate 16 1 ∧
    poly1305 (leBytes (2 ^ 256 - 1) 32) (List.replicate 16 0xff) =
      [0xfb, 0xff, 0xff, 0x17, 0xfa, 0xff, 0xff, 0x17, 0xfa, 0xff, 0xff, 0x17, 0xfa, 0xff, 0xff, 0x17] := by
  decide +kernel
theorem test_pTag : look (fun t => (ends t, bytesAt t 0x400 16)) (exec .pTag startMac) = some ((0x2, 16), macTag) := by
  decide +kernel
/-- The context table: after P.INIT and the first ten bytes. -/
theorem test_pInit : look (fun t => (ends t, t.ctx.acc, t.ctx.pbl, t.ctx.pr)) (exec .pInit startMac) =
    some ((0x12, 0), 0, 0, 0x0806d5400e52447c036d555408bed685) := by decide +kernel
theorem test_pAbsorb :
    look (fun t => (t.ctx.acc, t.ctx.pbl, t.ctx.pb.toList.take 11))
        (exec .pAbsorb (withRegs { startMac with ctx := .opened macKey } { regs with srcLen := 10 })) =
      some (0, 10, [0x43, 0x72, 0x79, 0x70, 0x74, 0x6f, 0x67, 0x72, 0x61, 0x70, 0x00]) := by decide +kernel
/-- The context table: after bytes 10 to 33. -/
theorem test_pAbsorb_blocks :
    look (fun t => (t.ctx.acc, t.ctx.pbl, t.ctx.pb.toList.take 3))
        (exec .pAbsorb (withRegs { startMac with ctx := PolyCtx.absorb (.opened macKey) (macMessage.take 10) }
          { regs with srcPtr := 0x20A, srcLen := 24 })) =
      some (0x2d8adaf23b0337fa7cccfb4ea344b30de, 2, [0x75, 0x70, 0x00]) := by decide +kernel
theorem test_pFinal :
    look (fun t => (ends t, bytesAt t 0x400 16, t.ctx))
        (exec .pFinal { startMac with ctx := PolyCtx.absorb (.opened macKey) macMessage }) =
      some ((0x2, 16), macTag, PolyCtx.closed) := by decide +kernel
/-- The three P.VERIFY rows. -/
theorem test_pVerify :
    look ends (exec .pVerify { startMac with mem := startMac.mem.writeBytes 0x340 macTag }) = some (0x6, 0) ∧
    look ends (exec .pVerify { startMac with mem := startMac.mem.writeBytes 0x340 (macTag.set 15 0xa8) }) = some (0x2, 0) ∧
    look ends (exec .pVerify { startMac with mem := startMac.mem.writeBytes 0x340 macTag, opr := { startMac.opr with auxLen := 15 } }) =
      some (0x2, 0) := by decide +kernel

/-! ## The AEAD and CT.EQ: section 2.5 -/

/-- The key and nonce of section 1.5, with an envelope of section 2.5 at 0x200. -/
def startAead (src : List Byte) : State :=
  withRegs (start (count 0x80 32) [7, 0, 0, 0, 0x40, 0x41, 0x42, 0x43, 0x44, 0x45, 0x46, 0x47] src)
    { regs with srcLen := BitVec.ofNat 64 src.length }

/-- Section 2.5: the envelope of the plaintext `00` with no AAD. -/
def envelope1 : List Byte :=
  [0x9f, 0xbb, 0x75, 0x8e, 0x73, 0x7c, 0xb5, 0x6e, 0x18, 0xdf, 0x47, 0x48, 0x42, 0x1b, 0x08, 0x5b, 0xb0]

theorem test_aeSeal : look (fun t => (ends t, bytesAt t 0x400 17)) (exec .aeSeal (startAead [0])) =
    some ((0x2, 17), envelope1) := by decide +kernel
theorem test_aeOpen : look (fun t => (ends t, bytesAt t 0x400 1)) (exec .aeOpen (startAead envelope1)) =
    some ((0x6, 1), [0]) := by decide +kernel
/-- A changed tag byte; memory is as before (section 1.6, R196). -/
theorem test_aeOpen_tampered :
    look (fun t => (ends t, t.mem == (startAead (envelope1.set 16 0xb1)).mem)) (exec .aeOpen (startAead (envelope1.set 16 0xb1))) =
      some ((0x502, 0), true) := by decide +kernel
theorem test_ctEq :
    look ends (exec .ctEq (withRegs (start [] [] [0x61, 0x62]) { regs with srcLen := 2, auxPtr := 0x200, auxLen := 2 })) = some (0x6, 0) ∧
    look ends (exec .ctEq (withRegs (start [] [] [0x61, 0x62, 0x61, 0x63]) { regs with srcLen := 2, auxPtr := 0x202, auxLen := 2 })) = some (0x2, 0) ∧
    look ends (exec .ctEq (withRegs (start [] [] [0x61, 0x62]) { regs with srcLen := 2, auxPtr := 0x200, auxLen := 3 })) = some (0x2, 0) ∧
    look ends (exec .ctEq (withRegs start0 { regs with srcLen := 0, auxLen := 0 })) = some (0x6, 0) := by decide +kernel

/-! ## Errors and STATUS: rows of section 2.6 -/

theorem test_errors_chacha :
    look ends (step (start0.latched 64 0)) = some (0x702, 0) ∧
    look ends (step (start0.latched 64 0x1000001)) = some (0x702, 0) ∧
    look ends (exec .ccBlock (withRegs start0 { regs with keyLen := 31, nonceLen := 8 })) = some (0x102, 0) ∧
    look ends (exec .ccBlock (withRegs start0 { regs with nonceLen := 8 })) = some (0x202, 0) ∧
    look ends (exec .ccBlock (withRegs start0 { regs with dstPtr := 0xFFC1 })) = some (0x802, 0) ∧
    look ends (exec .ccOtk (withRegs start0 { regs with dstPtr := 0xFFE1 })) = some (0x802, 0) ∧
    look ends (exec .ccXor (withRegs start0 { regs with keyLen := 0, srcLen := 0xffffffffffffffff })) = some (0x102, 0) := by
  decide +kernel
theorem test_errors_poly :
    look ends (exec .pInit (withRegs start0 { regs with keyLen := 16 })) = some (0x602, 0) ∧
    look ends (exec .pInit (withRegs start0 { regs with keyPtr := 0xFFF0 })) = some (0x802, 0) ∧
    look ends (exec .pAbsorb (withRegs start0 { regs with srcPtr := 0xFFFF })) = some (0x902, 0) ∧
    look ends (exec .pAbsorb (withRegs (opened start0) { regs with srcPtr := 0xFFFF, srcLen := 2 })) = some (0x812, 0) ∧
    look ends (exec .pFinal (withRegs (opened start0) { regs with dstPtr := 0xFFF1 })) = some (0x812, 0) ∧
    look ends (exec .pFinal (withRegs (opened start0) { regs with dstPtr := 0xFFF0 })) = some (0x2, 16) ∧
    look ends (exec .pTag (withRegs start0 { regs with keyLen := 33 })) = some (0x602, 0) := by decide +kernel
theorem test_errors_aead :
    look ends (exec .aeSeal (withRegs start0 { regs with nonceLen := 24 })) = some (0x202, 0) ∧
    look ends (exec .aeSeal (withRegs start0 { regs with srcLen := 274877906881 })) = some (0x402, 0) ∧
    look ends (exec .aeSeal (withRegs start0 { regs with dstPtr := 0xFFB1 })) = some (0x802, 0) ∧
    look ends (exec .aeOpen (withRegs start0 { regs with srcLen := 15, nonceLen := 0 })) = some (0x202, 0) ∧
    look ends (exec .aeOpen (withRegs start0 { regs with srcLen := 15 })) = some (0x302, 0) ∧
    look ends (exec .aeOpen (withRegs start0 { regs with srcLen := 274877906897 })) = some (0x402, 0) ∧
    look ends (exec .aeOpen (withRegs start0 { regs with dstPtr := 0xFFD1 })) = some (0x802, 0) ∧
    look ends (exec .ctEq (withRegs start0 { regs with auxPtr := 0xFFF1 })) = some (0x802, 0) := by decide +kernel

/-! ## The HOST: program P4 of section 3 -/

/-- The write of SRC_LEN that races with the ENGINE's step, dropped (outcome (a)). -/
theorem test_droppedWrite :
    look (fun t => (t.ovr, t.opr.srcLen.toNat, t.busy))
        (step (facing (latched start0 .ccXor) (.host (.wr 0x48 8 5)))) = some (true, 64, true) := by decide +kernel
/-- `ack`: STATUS 0x0A clears DONE and OVR. -/
theorem test_ack :
    look (fun t => (t.statusWord.toNat, t.irq)) (step (facing { start0 with done := true, ovr := true, ie := true } (.host (.wr 0x08 8 0x0A)))) =
      some (0, false) := by decide +kernel

/-! ## For every statement with hypotheses, states and operands that meet them -/

/-- `s` with a source of `n` bytes at the top of memory and an output at `d`. -/
def src (s : State) (p : DWord) (n : DWord) (d : DWord) : State :=
  withRegs s { regs with srcPtr := p, srcLen := n, dstPtr := d }

/-- Ranges whose ends tell them apart. -/
theorem apart_of {p q : DWord} {m n : Nat} (h : p.toNat + m ≤ q.toNat ∨ q.toNat + n ≤ p.toNat ∨ m = 0 ∨ n = 0) :
    Apart p m q n := by
  intro a ha
  omega

theorem witness_DecodeAndEncodeAgree : decode 0x0000000000FFFF01 = .ok (.ccQr 15 15 15 15) := rfl
theorem witness_CcQrIndicesAreTheFourNibbles :
    decode 0x0000000000000101 = .ok (.ccQr 1 0 0 0) ∧ decode 0x32 = .ok .ctEq ∧ ∀ a b c d, Instr.ctEq ≠ .ccQr a b c d :=
  ⟨rfl, rfl, nofun⟩
theorem witness_DecodeSelectsByMatchAndMask : decode 0x02 = .ok .ccDround ∧ decode 0x32 = .ok .ctEq ∧
    (0x32, Instr.ctEq) ∈ [(0x02, Instr.ccDround), (0x32, .ctEq)] := ⟨rfl, rfl, by decide⟩
theorem witness_StepRunsTheDecodedCommand :
    EngineMoves (latched start0 .ccXor) ∧ decode (latched start0 .ccXor).latch = .ok .ccXor := ⟨⟨rfl, .inl rfl⟩, rfl⟩
/-- An illegal word of each of the three kinds of R78. -/
theorem witness_IllegalWordRaisesBadCommand :
    (EngineMoves (start0.latched 64 0) ∧
      (start0.latched 64 0).latch.toNat % 256 ∉ [0x01, 0x02, 0x03, 0x04, 0x05, 0x06, 0x10, 0x20, 0x21, 0x22, 0x23, 0x24, 0x30, 0x31, 0x32]) ∧
    (EngineMoves (start0.latched 64 0x1000001) ∧ (start0.latched 64 0x1000001).latch.toNat % 256 = 1 ∧
      (start0.latched 64 0x1000001).latch.toNat / 2 ^ 24 ≠ 0) ∧
    (EngineMoves (start0.latched 64 0x105) ∧ (start0.latched 64 0x105).latch.toNat % 256 ≠ 1 ∧
      (start0.latched 64 0x105).latch.toNat / 2 ^ 8 ≠ 0) :=
  ⟨⟨⟨rfl, .inl rfl⟩, by decide⟩, ⟨⟨rfl, .inl rfl⟩, by decide, by decide⟩, ⟨rfl, .inl rfl⟩, by decide, by decide⟩
theorem witness_BusyCommandReachesItsStep :
    (facing (latched start0 .ccXor) (.host .wait)).busy = true ∧
      ∀ e ∈ (facing (latched start0 .ccXor) (.host .wait)).env.agenda, e ≠ .reset :=
  ⟨rfl, fun e he => by cases List.mem_singleton.mp he; exact nofun⟩
theorem witness_ErrorChangesNothingElse :
    (∃ t, exec .pFinal start0 = .next t ∧ t.err = some .noContext) ∧
      EngineMoves (start0.latched 64 0) ∧ ∃ t, step (start0.latched 64 0) = .next t ∧ t.err = some .badCommand :=
  ⟨⟨_, rfl, rfl⟩, ⟨rfl, .inl rfl⟩, _, rfl, rfl⟩

/-- A case of every clause, at the boundary of its condition. -/
theorem witness_ErrorsAreReportedInOrder :
    start0.ctx.pctx = false ∧
    (withRegs start0 { regs with keyLen := 31 }).opr.keyLen ≠ 32 ∧
    (withRegs start0 { regs with nonceLen := 13 }).opr.keyLen = 32 ∧
    (withRegs start0 { regs with nonceLen := 13 }).opr.nonceLen ≠ 12 ∧
    (src start0 0x200 15 0x400).opr.srcLen.toNat < 16 ∧
    274877906880 < (src start0 0x200 274877906881 0x400).opr.srcLen.toNat ∧
    (src start0 0x200 274877906880 0x400).opr.srcLen.toNat ≤ 274877906880 ∧
    2 ^ 32 - ({ start0 with ctr := 2 } : State).ctr.toNat < (274877906880 + 63) / 64 ∧
    274877906880 < (src start0 0x200 274877906897 0x400).opr.srcLen.toNat - 16 := by decide
theorem witness_ErrorsAreReportedInOrder_ranges :
    ¬Fits (withRegs start0 { regs with dstPtr := 0xFFC1 }) 0xFFC1 64 ∧ start0.opr.keyLen = 32 ∧ start0.opr.nonceLen = 12 ∧
      start0.opr.srcLen.toNat ≤ 274877906880 ∧ (start0.opr.srcLen.toNat + 63) / 64 ≤ 2 ^ 32 - start0.ctr.toNat ∧
      (opened start0).ctx.pctx = true :=
  ⟨fun h => by revert h; simp [Fits, withRegs, start0, start, State.reset, State.memBytes, Config.memBytes], by decide⟩

/-- An output one byte off its source, and AE.OPEN's output over the key with a tag that matches. -/
theorem witness_CommandsStopExactlyOnUndefinedOverlap :
    (src start0 0x200 64 0x201).inputError .ccPerm = none ∧
    (∃ x ∈ (src start0 0x200 64 0x201).inputs .ccPerm,
      ¬Apart (src start0 0x200 64 0x201).opr.dstPtr ((src start0 0x200 64 0x201).outCount .ccPerm) x.ptr x.len ∧
        ¬(x.who = .src ∧ x.ptr = (src start0 0x200 64 0x201).opr.dstPtr)) :=
  ⟨by decide, _, List.mem_singleton.mpr rfl, fun h => h 0x210 (by decide), by decide⟩
theorem witness_CommandsStopExactlyOnUndefinedOverlap_open :
    let s := withRegs (startAead envelope1) { (startAead envelope1).opr with dstPtr := 0x11F }
    s.inputError .aeOpen = none ∧ openBytes (bytesAt s 0x100 32) (bytesAt s 0x120 12) (bytesAt s 0x200 17) [] = some [0] ∧
      ∃ x ∈ s.inputs .aeOpen, ¬Apart s.opr.dstPtr (s.outCount .aeOpen) x.ptr x.len ∧ ¬(x.who = .src ∧ x.ptr = s.opr.dstPtr) :=
  ⟨by decide +kernel, by decide +kernel, _, List.mem_cons_self, fun h => h 0x11F (by decide), by decide⟩
theorem witness_CommandsWriteOnlyTheirOutput :
    ∃ t, exec .ccDround start0 = .next t ∧ t.outLen.toNat = 64 :=
  ⟨_, exec_success (by decide) (by decide) rfl, rfl⟩
theorem witness_ResultIsOneExactlyWhenStated :
    (∃ t, exec .ctEq (withRegs start0 { regs with srcLen := 0, auxLen := 0 }) = .next t) ∧
    ∃ t, step (latched (withRegs start0 { regs with srcLen := 0, auxLen := 0 }) .ctEq) = .next t ∧ t.result ≠ start0.result :=
  ⟨⟨_, exec_success (by decide) (by decide) rfl⟩, _, rfl, by decide⟩

theorem witness_QuarterRoundEquations :
    ([0, 4, 8, 12] : List (Fin 16)).Nodup ∧ (1 : Fin 16) ≠ 0 ∧ (1 : Fin 16) ≠ 4 ∧ (1 : Fin 16) ≠ 8 ∧ (1 : Fin 16) ≠ 12 := by
  decide
theorem witness_RoundsDoNotDependOnLaneOrder :
    ([(3, 7, 11, 15), (2, 6, 10, 14), (1, 5, 9, 13), (0, 4, 8, 12)] : List (Fin 16 × Fin 16 × Fin 16 × Fin 16)).Perm
      [(0, 4, 8, 12), (1, 5, 9, 13), (2, 6, 10, 14), (3, 7, 11, 15)] ∧
    ([(3, 4, 9, 14), (2, 7, 8, 13), (1, 6, 11, 12), (0, 5, 10, 15)] : List (Fin 16 × Fin 16 × Fin 16 × Fin 16)).Perm
      [(0, 5, 10, 15), (1, 6, 11, 12), (2, 7, 8, 13), (3, 4, 9, 14)] :=
  ⟨List.reverse_perm [_, _, _, _], List.reverse_perm [_, _, _, _]⟩
theorem witness_InitialStateWords : (count 0 32).length = 32 ∧ nonce1.length = 12 := by decide
/-- In place at the top of memory, and apart. -/
theorem witness_StateCommandsComplete :
    (Fits (src start0 0xFFC0 0 0xFFC0) 0xFFC0 64 ∧ OutInPlaceOrApart (src start0 0xFFC0 0 0xFFC0) 64 64) ∧
    (Fits start0 0x200 64 ∧ Fits start0 0x400 64 ∧ OutInPlaceOrApart start0 64 64) ∧
    ∃ x : Block, ∀ k, (h : k < 16) → x[k] = wordAt start0 (start0.opr.srcPtr.toNat + 4 * k) :=
  ⟨⟨.inr (by decide), .inl rfl⟩, ⟨.inr (by decide), .inr (by decide), .inr (apart_of (.inr (.inl (by decide))))⟩,
    Vector.ofFn fun k => wordAt start0 (start0.opr.srcPtr.toNat + 4 * k.val), fun k h => by simp⟩
theorem witness_KeyedBlockCommandsComplete :
    KeyOk (src start0 0x200 64 0xFFC0) ∧ NonceOk (src start0 0x200 64 0xFFC0) ∧
      Fits (src start0 0x200 64 0xFFC0) 0xFFC0 64 ∧ OutApartFromKeys (src start0 0x200 64 0xFFC0) 64 ∧
      Fits (src start0 0x200 64 0xFFE0) 0xFFE0 32 ∧ OutApartFromKeys (src start0 0x200 64 0xFFE0) 32 :=
  ⟨⟨rfl, .inr (by decide)⟩, ⟨rfl, .inr (by decide)⟩, .inr (by decide),
    ⟨apart_of (.inr (.inl (by decide))), apart_of (.inr (.inl (by decide)))⟩, .inr (by decide),
    ⟨apart_of (.inr (.inl (by decide))), apart_of (.inr (.inl (by decide)))⟩⟩
/-- The last block of the counter range, and an empty message anywhere. -/
theorem witness_CcXorCompletes :
    (KeyOk { start0 with ctr := 0xffffffff } ∧ NonceOk { start0 with ctr := 0xffffffff } ∧
      (start0.opr.srcLen.toNat + 63) / 64 ≤ 2 ^ 32 - (0xffffffff : Word).toNat ∧ Fits start0 0x200 64 ∧ Fits start0 0x400 64 ∧
      OutApartFromKeys start0 64 ∧ OutInPlaceOrApart start0 64 64) ∧
    Fits start0 0xffffffffffffffff 0 ∧ Apart 0xffffffffffffffff 0 0x100 32 :=
  ⟨⟨⟨rfl, .inr (by decide)⟩, ⟨rfl, .inr (by decide)⟩, by decide, .inr (by decide), .inr (by decide),
    ⟨apart_of (.inr (.inl (by decide))), apart_of (.inr (.inl (by decide)))⟩, .inr (apart_of (.inr (.inl (by decide))))⟩,
    .inl rfl, apart_of (.inr (.inr (.inl rfl)))⟩
theorem witness_XorInPlaceTwiceRestoresMemory :
    start0.mem.wf ∧ KeyOk (src start0 0xFFC0 64 0xFFC0) ∧ NonceOk (src start0 0xFFC0 64 0xFFC0) ∧
      Fits (src start0 0xFFC0 64 0xFFC0) 0xFFC0 64 ∧ OutApartFromKeys (src start0 0xFFC0 64 0xFFC0) 64 :=
  ⟨Memory.writeBytes_wf (Memory.writeBytes_wf (Memory.writeBytes_wf ⟨List.Pairwise.nil, nofun⟩ _ _) _ _) _ _,
    ⟨rfl, .inr (by decide)⟩, ⟨rfl, .inr (by decide)⟩, .inr (by decide),
    ⟨apart_of (.inr (.inl (by decide))), apart_of (.inr (.inl (by decide)))⟩⟩

theorem witness_AccumulatorBounds : 2 ^ 130 - 6 < 2 ^ 130 - 5 ∧ (count 0 16).length ≤ 16 := by decide
theorem witness_PInitCompletes : KeyOk (withRegs start0 { regs with keyPtr := 0xFFE0 }) := ⟨rfl, .inr (by decide)⟩
theorem witness_PAbsorbCompletes :
    (opened start0).ctx.pctx = true ∧ Fits (src (opened start0) 0xFFFF 1 0x400) 0xFFFF 1 ∧
      Fits (src (opened start0) 0xffffffffffffffff 0 0x400) 0xffffffffffffffff 0 := ⟨rfl, .inr (by decide), .inl rfl⟩
theorem witness_PFinalCompletes :
    (opened start0).ctx.pctx = true ∧ Fits (src (opened start0) 0x200 64 0xFFF0) 0xFFF0 16 := ⟨rfl, .inr (by decide)⟩
theorem witness_OneShotMacCommandsComplete :
    KeyOk startMac ∧ Fits startMac 0x200 34 ∧ Fits startMac 0x400 16 ∧ Apart 0x400 16 0x100 32 ∧
      OutInPlaceOrApart startMac 16 34 ∧ Fits startMac 0x340 16 :=
  ⟨⟨rfl, .inr (by decide)⟩, .inr (by decide), .inr (by decide), apart_of (.inr (.inl (by decide))),
    .inr (apart_of (.inr (.inl (by decide)))), .inr (by decide)⟩
/-- P.INIT, one P.ABSORB of 64 bytes, P.FINAL. -/
theorem witness_ChunkedMacEqualsOneShot :
    ∃ s t u v m, exec .pInit s = .next t ∧ t.err = none ∧ AbsorbRun t.ctx m u.ctx ∧ m.length = 64 ∧
      exec .pFinal u = .next v ∧ v.err = none := by
  have h1 : exec .pInit start0 = .next (succeeded start0 .pInit) :=
    exec_success (by decide +kernel) (by decide +kernel) rfl
  have h2 : exec .pAbsorb (opened start0) = .next (succeeded (opened start0) .pAbsorb) :=
    exec_success (by decide +kernel) (by decide +kernel) rfl
  have hc : (succeeded start0 .pInit).ctx = (opened start0).ctx := by decide +kernel
  have h4 : exec .pFinal (succeeded (opened start0) .pAbsorb) =
      .next (succeeded (succeeded (opened start0) .pAbsorb) .pFinal) :=
    exec_success (by decide +kernel) (by decide +kernel) rfl
  have h5 : AbsorbRun (succeeded start0 .pInit).ctx
      (bytesAt (opened start0) (opened start0).opr.srcPtr (opened start0).opr.srcLen.toNat ++ [])
      (succeeded (opened start0) .pAbsorb).ctx := by
    rw [hc]
    exact AbsorbRun.more h2 rfl (.none _)
  exact ⟨start0, _, succeeded (opened start0) .pAbsorb, _, _, h1, rfl, h5,
    by simp [bytesAt, opened, start0, start, regs], h4, rfl⟩

theorem witness_MacInputIsUnambiguous : nonce1.length < 2 ^ 64 ∧ macMessage.length < 2 ^ 64 ∧
    macData nonce1 macMessage = macData nonce1 macMessage := ⟨by decide, by decide, rfl⟩
/-- The output ends at the top of memory. -/
theorem witness_AeSealCompletes :
    KeyOk (src start0 0x200 64 0xFFB0) ∧ NonceOk (src start0 0x200 64 0xFFB0) ∧ Fits (src start0 0x200 64 0xFFB0) 0x200 64 ∧
      Fits (src start0 0x200 64 0xFFB0) 0x300 0 ∧ Fits (src start0 0x200 64 0xFFB0) 0xFFB0 (64 + 16) ∧
      OutApartFromKeys (src start0 0x200 64 0xFFB0) (64 + 16) ∧ Apart 0xFFB0 (64 + 16) 0x300 0 ∧
      OutInPlaceOrApart (src start0 0x200 64 0xFFB0) (64 + 16) 64 :=
  ⟨⟨rfl, .inr (by decide)⟩, ⟨rfl, .inr (by decide)⟩, .inr (by decide), .inl rfl, .inr (by decide),
    ⟨apart_of (.inr (.inl (by decide))), apart_of (.inr (.inl (by decide)))⟩, apart_of (.inr (.inr (.inr rfl))),
    .inr (apart_of (.inr (.inl (by decide))))⟩
/-- A tag that matches and one that does not (section 2.5). -/
theorem witness_AeOpenCompletesOrFailsAuthentication :
    KeyOk (startAead envelope1) ∧ NonceOk (startAead envelope1) ∧ Fits (startAead envelope1) 0x200 17 ∧
      Fits (startAead envelope1) 0x300 0 ∧ Fits (startAead envelope1) 0x400 1 ∧ OutApartFromKeys (startAead envelope1) 1 ∧
      OutInPlaceOrApart (startAead envelope1) 1 17 :=
  ⟨⟨rfl, .inr (by decide)⟩, ⟨rfl, .inr (by decide)⟩, .inr (by decide), .inl rfl, .inr (by decide),
    ⟨apart_of (.inr (.inl (by decide))), apart_of (.inr (.inl (by decide)))⟩, .inr (apart_of (.inr (.inl (by decide))))⟩
theorem witness_AeOpenCompletesOrFailsAuthentication_tag :
    let s := startAead envelope1
    poly1305 ((keyedBlock (bytesAt s 0x100 32) (bytesAt s 0x120 12) 0).take 32) (macData [] (bytesAt s 0x200 1)) =
      (bytesAt s 0x200 17).drop 1 ∧
    (bytesAt s 0x200 17).drop 1 ≠ (envelope1.set 16 0xb1).drop 1 := by decide +kernel
theorem witness_CtEqCompletes : Fits start0 0x200 64 ∧ Fits start0 0x340 16 := ⟨.inr (by decide), .inr (by decide)⟩
theorem witness_SealThenOpenGivesThePlaintext :
    ∃ s t u d, exec .aeSeal s = .next t ∧ t.err = none ∧ u.mem = t.mem ∧ u.cfg = t.cfg ∧
      u.opr = { t.opr with srcPtr := s.opr.dstPtr, srcLen := s.opr.srcLen + 16, dstPtr := d } ∧
      Fits u d s.opr.srcLen.toNat ∧ OutApartFromKeys u s.opr.srcLen.toNat ∧
      Apart d s.opr.srcLen.toNat s.opr.aadPtr s.opr.aadLen.toNat ∧
      OutInPlaceOrApart u s.opr.srcLen.toNat (s.opr.srcLen.toNat + 16) := by
  refine ⟨start0, succeeded start0 .aeSeal,
    withRegs (succeeded start0 .aeSeal) { regs with srcPtr := 0x400, srcLen := 80, dstPtr := 0x600 }, 0x600,
    exec_success (by decide) (by decide) rfl, rfl, rfl, rfl, rfl, .inr (by decide), ⟨?_, ?_⟩, ?_, .inr ?_⟩
  · exact apart_of (.inr (.inl (by decide)))
  · exact apart_of (.inr (.inl (by decide)))
  · exact apart_of (.inr (.inr (.inr rfl)))
  · exact apart_of (.inr (.inl (by decide)))

/-- Idle and busy, for CommandIssue, OperandRegisterWrites, StatusControlAndReservedWrites, RegisterReads, WaitPollsStatus
and ResetRestoresTheTable at every offset and value: any event can land in either. -/
theorem witness_HostStatements (e : Event) :
    (Lands (facing start0 e) e [] ∧ (facing start0 e).busy = false) ∧
    (Lands (facing (latched start0 .ccBlock) e) e [] ∧ (facing (latched start0 .ccBlock) e).busy = true ∧
      decode (facing (latched start0 .ccBlock) e).latch = .ok .ccBlock) :=
  ⟨⟨lands_facing .., rfl⟩, lands_facing .., rfl, (rfl : decode (latched start0 .ccBlock).latch = .ok .ccBlock)⟩
theorem witness_UndefinedRegisterAccessIsRefused :
    ¬((8 : Nat) = 8 ∧ 0x04 % 8 = 0 ∧ 0x04 < 256) ∧ ¬((4 : Nat) = 8 ∧ 0x00 % 8 = 0 ∧ 0x00 < 256) ∧
      ¬((8 : Nat) = 8 ∧ 0x100 % 8 = 0 ∧ 0x100 < 256) := by decide
theorem witness_HiddenStateIsNotReadable :
    start0.busy = false ∧ start0.ctx.pctx = PolyCtx.closed.pctx ∧ ∃ t, step (facing start0 (.host .wait)) = .next t :=
  ⟨rfl, rfl, _, rfl⟩
/-- A busy CORE, one byte at the top of memory, clear of the ranges of CC.BLOCK; and its little-endian value. -/
theorem witness_HostDataWritesAndReads :
    Fits (latched start0 .ccBlock) 0xFFFF 1 ∧ ClearOfCommand (latched start0 .ccBlock) 0xFFFF 1 ∧
      le [0xa5] = (0xa5 : DWord).toNat % 256 ^ [(0xa5 : Byte)].length := by
  refine ⟨.inr (by decide), fun _ i hi r hr => ?_, by decide⟩
  have : decode (latched start0 .ccBlock).latch = .ok .ccBlock := rfl
  rw [this] at hi
  cases hi
  simp only [State.inputs, List.mem_cons, List.not_mem_nil, or_false] at hr
  rcases hr with rfl | rfl | rfl <;> exact apart_of (.inr (.inl (by decide)))
/-- The first byte beyond memory, the first byte of the key of a busy CC.BLOCK, and units of 0 and 9 bytes. -/
theorem witness_UndefinedDataAccessIsRefused :
    start0.memBytes < (0xFFFF : DWord).toNat + 2 ∧ Fits (latched start0 .ccBlock) 0x100 1 ∧
      (∃ r ∈ (latched start0 .ccBlock).output .ccBlock :: (latched start0 .ccBlock).inputs .ccBlock,
        ¬Apart 0x100 1 r.ptr r.len) ∧ ¬(1 ≤ 0 ∧ 0 ≤ 8) ∧ ¬(1 ≤ 9 ∧ 9 ≤ 8) :=
  ⟨by decide, .inr (by decide), ⟨start0.keyRange, by simp [State.inputs]; exact .inr (.inl rfl), fun h => h 0x100 (by decide)⟩, by decide, by decide⟩

/-- BUSY rises at an issue, which latches the word, and falls at a completion. -/
theorem witness_BusyAndLatchChangeOnlyAsStated :
    (∃ t, step (facing start0 (.host (.wr 0x00 8 0x22))) = .next t ∧ start0.busy = false ∧ t.busy = true ∧ t.latch ≠ start0.latch) ∧
    ∃ t, step (latched start0 .pFinal) = .next t ∧ (latched start0 .pFinal).busy = true ∧ t.busy = false :=
  ⟨⟨_, rfl, rfl, rfl, by decide⟩, _, rfl, rfl, rfl⟩
/-- DONE rises at a completion and falls at `ack`. -/
theorem witness_DoneChangesExactlyAsStated :
    (∃ t, step (latched start0 .pFinal) = .next t ∧ (latched start0 .pFinal).done = false ∧ t.done = true) ∧
    ∃ t, step (facing { start0 with done := true } (.host (.wr 0x08 8 0x0A))) = .next t ∧ t.done = false :=
  ⟨⟨_, rfl, rfl, rfl⟩, _, rfl, rfl⟩
/-- OVR falls at `ack` and rises at a dropped write of the first and the last operand slot. -/
theorem witness_OvrChangesExactlyAsStated :
    (∃ t, step (facing { start0 with ovr := true } (.host (.wr 0x08 8 0x0A))) = .next t ∧ t.ovr = false) ∧
    (∃ t, step (facing (latched start0 .pFinal) (.host (.wr 0x18 8 5))) = .next t ∧ (latched start0 .pFinal).ovr = false ∧ t.ovr = true) ∧
    ∃ t, step (facing (latched start0 .pFinal) (.host (.wr 0x70 8 5))) = .next t ∧ t.ovr = true :=
  ⟨⟨_, rfl, rfl⟩, ⟨_, rfl, rfl, rfl⟩, _, rfl, rfl⟩
theorem witness_OperandsChangeOnlyByTheHost :
    (∃ t, step (facing start0 (.host (.wr 0x70 8 5))) = .next t ∧ t.opr ≠ start0.opr) ∧
    (∃ t, step (facing start0 (.host (.wr 0x18 8 5))) = .next t ∧ t.ctr ≠ start0.ctr) ∧
    ∃ t, step (facing start0 (.host (.wr 0x10 8 1))) = .next t ∧ t.ie ≠ start0.ie :=
  ⟨⟨_, rfl, by decide⟩, ⟨_, rfl, by decide⟩, _, rfl, by decide⟩
/-- ERR changes at a completion, the context at P.INIT's, memory by a HOST write. -/
theorem witness_CompletionStateChangesOnlyAsStated :
    (∃ t, step (latched start0 .pFinal) = .next t ∧ t.err ≠ start0.err) ∧
    (∃ t, step (latched start0 .pInit) = .next t ∧ t.ctx ≠ start0.ctx) ∧
    ∃ t, step (facing start0 (.host (.mw 0xFFFF [1]))) = .next t ∧ t.mem ≠ start0.mem := by
  refine ⟨⟨_, rfl, by decide⟩, ⟨succeeded (latched start0 .pInit) .pInit, ?_, fun h => ?_⟩, _, rfl, by decide⟩
  · rw [step_engine (engineTurn_iff.mpr ⟨rfl, .inl rfl⟩), engineStep_ok (i := .pInit) rfl]
    exact exec_success (by decide) (by decide) rfl
  · exact absurd (congrArg PolyCtx.pctx h) (by decide)
theorem witness_InterruptLine :
    (∃ t, exec .pFinal { start0 with ie := true } = .next t ∧ t.irq = true) ∧
    (∃ t, EngineMoves (State.latched { start0 with ie := true } 64 0) ∧
      step (State.latched { start0 with ie := true } 64 0) = .next t ∧ t.irq = true) ∧
    ∃ t, step (facing { start0 with ie := true, done := true } (.host (.wr 0x08 8 2))) = .next t ∧
      (2 : DWord).toNat / 2 % 2 = 1 := ⟨⟨_, rfl, rfl⟩, ⟨_, ⟨rfl, .inl rfl⟩, rfl, rfl⟩, _, rfl, rfl⟩
/-- A reset about to land on a CC.PERM whose output lies one byte off its source: refused (R57). -/
theorem witness_ResetRestoresTheTable_refused :
    let s := facing (latched (src start0 0x200 64 0x201) .ccPerm) .reset
    Lands s .reset [] ∧ s.busy = true ∧ decode s.latch = .ok .ccPerm ∧ exec .ccPerm s = .refused .outputOverlapsInput :=
  ⟨lands_facing .., rfl, rfl, exec_overlap (by decide) (by decide) rfl⟩
/-- An illegal word latched and busy, about to be reset. -/
theorem witness_ResetRestoresTheTable :
    let s := facing (start0.latched 64 0) .reset
    Lands s .reset [] ∧ s.busy = true ∧ ∀ i, decode s.latch ≠ .ok i :=
  ⟨lands_facing .., rfl, fun i h => by
    rw [show decode (facing (start0.latched 64 0) .reset).latch = .error .unassignedOpcode from rfl] at h; cases h⟩
/-- A busy CC.BLOCK whose output ends at the top of memory, about to be reset. -/
theorem witness_ResetAbandonsTheOutput :
    let s := facing (latched (src start0 0x200 64 0xFFC0) .ccBlock) .reset
    Lands s .reset [] ∧ s.busy = true ∧ decode s.latch = .ok .ccBlock ∧ 63 < s.outCount .ccBlock ∧
      s.opr.dstPtr.toNat + 63 < s.memBytes ∧ ∀ r, exec .ccBlock s ≠ .refused r :=
  ⟨lands_facing .., rfl, rfl, by decide, by decide, fun r => by rw [exec_success (by decide) (by decide) rfl]; nofun⟩
theorem witness_EqualMemoriesAreEqualData : Memory.wf [(0, 1), (0xFFFF, 2)] := by decide
theorem witness_EveryStepKeepsTheInvariant : State.reset.Inv ∧ step State.reset = .next State.reset :=
  ⟨⟨⟨⟨List.Pairwise.nil, nofun⟩, nofun⟩, ctxInv_closed, rfl⟩, rfl⟩

end Sys2Proof.Tests
end

section
/-! SUPPORT. What the end of a command keeps: the invariant, the frame, RESULT (spec/10_state.md R28, R41 to R43). -/

namespace Sys2Proof.Machine

/-- The output range of a command with no input error is empty or exists (R54). -/
theorem output_within {s : State} {i : Instr} (h : s.inputError i = none) :
    s.outCount i = 0 ∨ s.opr.dstPtr.toNat + s.outCount i ≤ s.memBytes :=
  valid_iff.mp (checkRanges_none.mp (ranges_of_noError h)).2

/-- P.ABSORB with no input error has an open context (R195). -/
theorem pctx_of_pAbsorb {s : State} (h : s.inputError .pAbsorb = none) : s.ctx.pctx = true := by
  rw [State.inputError, firstError_none] at h
  have hc : s.checkContext = none := h _ (by simp [State.checks])
  simpa [State.checkContext] using hc

/-- Only P.INIT, P.ABSORB and P.FINAL leave another context (R36). -/
theorem ctxAfter_eq {s : State} {i : Instr} (h1 : i ≠ .pInit) (h2 : i ≠ .pAbsorb) (h3 : i ≠ .pFinal) :
    ctxAfter s i = s.ctx := by
  cases i
  case pInit => exact absurd rfl h1
  case pAbsorb => exact absurd rfl h2
  case pFinal => exact absurd rfl h3
  all_goals rfl

/-- The context that a successful command leaves keeps R43. -/
theorem ctxInv_ctxAfter {s : State} {i : Instr} (hc : ctxInv s.ctx) (h : s.inputError i = none) :
    ctxInv (ctxAfter s i) := by
  cases i
  case pInit => exact ctxInv_opened _
  case pAbsorb => exact ctxInv_absorb hc (pctx_of_pAbsorb h) _
  case pFinal => exact ctxInv_closed
  all_goals exact hc

/-- Writing bytes that exist keeps memory canonical and within MEM_BYTES (R50, R53). -/
theorem memInv_writeBytes {s t : State} {a : Nat} {bs : List Byte} (hs : memInv s) (hc : t.cfg = s.cfg)
    (hm : t.mem = s.mem.writeBytes a bs) (hb : bs = [] ∨ a + bs.length ≤ s.memBytes) : memInv t := by
  obtain ⟨hwf, hin⟩ := hs
  rw [memInv, State.memBytes, hc, hm]
  exact ⟨Memory.writeBytes_wf hwf a bs, Memory.writeBytes_within hin hb⟩

/-- An error keeps the invariant: it writes no memory and no context (R193). -/
theorem inv_raise {s : State} (hs : s.Inv) (e : CmdError) : (s.raise e).Inv := by
  obtain ⟨hm, hc, -⟩ := hs
  exact ⟨hm, hc, rfl⟩

/-- A success keeps the invariant: the output exists and the new context meets R43. -/
theorem inv_succeeded {s : State} {i : Instr} (hs : s.Inv) (h : s.inputError i = none) (ha : authOk s i = true) :
    (succeeded s i).Inv := by
  obtain ⟨hm, hc, -⟩ := hs
  refine ⟨memInv_writeBytes hm rfl rfl ?_, ctxInv_ctxAfter hc h, rfl⟩
  rw [← List.length_eq_zero_iff, length_outBytes ha]
  exact output_within h

/-- Every ENGINE step keeps the invariant, an illegal word's too (R73). -/
theorem inv_engineStep {s t : State} (hs : s.Inv) (h : s.engineStep = .next t) : t.Inv := by
  rcases engineStep_cases s with ⟨i, -, h'⟩ | ⟨e, -, h'⟩
  · rw [h'] at h
    rcases exec_next h with ⟨e, rfl, -⟩ | ⟨hn, -, ha, rfl⟩
    · exact inv_raise hs e
    · exact inv_succeeded hs hn ha
  · rw [h'] at h
    cases h
    exact inv_raise hs .badCommand

/-- A reset keeps the invariant: the free bytes it leaves exist (R221). -/
theorem inv_resetInput {s : State} (hs : s.Inv) : s.resetInput.Inv := by
  obtain ⟨hm, -, -⟩ := hs
  refine ⟨memInv_writeBytes hm rfl rfl ?_, ctxInv_closed, rfl⟩
  rw [← List.length_eq_zero_iff, length_drawBytes]
  exact abandoned_within s

/-- A write of a slot keeps the invariant: it reaches neither memory, nor the context, nor the scratch. -/
theorem inv_writeSlot {s : State} (hs : s.Inv) (v : DWord) (r : Slot) : (s.writeSlot v r).Inv := by
  obtain ⟨hmem, hctx, hscr, -, hcfg, -⟩ := writeSlot_keeps s v r
  obtain ⟨hm, hc, h0⟩ := hs
  refine ⟨?_, hctx ▸ hc, hscr ▸ h0⟩
  rw [memInv, State.memBytes, hmem, hcfg]
  exact hm

/-- Settles O55: each kind of step of `step_next` keeps the invariant. -/
theorem everyStepKeepsTheInvariant : Obligations.EveryStepKeepsTheInvariant := by
  intro s t hs h
  rcases step_next h with ⟨-, h⟩ | ⟨env, rfl⟩ | ⟨-, env, rfl⟩ | ⟨_, v, r, env, -, -, rfl⟩ |
    ⟨addr, bs, env, hb, -, rfl⟩
  · exact inv_engineStep hs h
  · exact hs
  · exact inv_resetInput hs
  · exact inv_writeSlot hs v r
  · obtain ⟨hm, hc, h0⟩ := hs
    exact ⟨memInv_writeBytes hm rfl rfl hb, hc, h0⟩

/-- Settles O56. -/
theorem resetMeetsTheInvariant : Obligations.ResetMeetsTheInvariant :=
  ⟨⟨⟨List.Pairwise.nil, nofun⟩, nofun⟩, ctxInv_closed, rfl⟩

/-- Settles O11: an error writes nothing (R193), a success its OUT_LEN bytes at DST_PTR (R76). -/
theorem commandsWriteOnlyTheirOutput : Obligations.CommandsWriteOnlyTheirOutput := by
  intro i s t h
  rcases exec_next h with ⟨e, rfl, -⟩ | ⟨hn, -, ha, rfl⟩
  · exact ⟨sameRegs_raise s e, rfl, rfl, rfl, rfl, .inl rfl, fun _ _ => rfl, fun _ _ _ => rfl⟩
  · obtain ⟨hbusy, hdone, herr, -, hout, hscr, hregs⟩ := ended_succeeded hn
    obtain ⟨-, hkeep⟩ := wrote_succeeded s i
    rw [length_outBytes ha] at hkeep
    rw [herr, if_pos rfl, hout]
    exact ⟨hregs, hbusy, hdone, hscr, rfl, output_within hn, hkeep, fun h1 h2 h3 => ctxAfter_eq h1 h2 h3⟩

/-- RESULT of a command that succeeds, in the terms of R28. -/
theorem resultOf_iff (s : State) (i : Instr) :
    resultOf s i = true ↔
      (i = .pVerify ∧ poly1305 (bytesAt s s.opr.keyPtr 32) (bytesAt s s.opr.srcPtr s.opr.srcLen.toNat) =
        bytesAt s s.opr.auxPtr s.opr.auxLen.toNat) ∨
      (i = .ctEq ∧ bytesAt s s.opr.srcPtr s.opr.srcLen.toNat = bytesAt s s.opr.auxPtr s.opr.auxLen.toNat) ∨
      i = .aeOpen := by
  cases i
  case pVerify =>
    simp only [resultOf, polyVerify, ctEqual_iff, true_and, reduceCtorEq, false_and, or_false]
    exact Iff.rfl
  case ctEq =>
    simp only [resultOf, ctEqual_iff, true_and, reduceCtorEq, false_and, or_false, false_or]
    exact Iff.rfl
  all_goals simp [resultOf]

end Sys2Proof.Machine
end

section
/-! SUPPORT. The register bank from the HOST's side (spec/10_state.md R22 to R37): which slot an offset reaches, what a
write of it does, and the step in which a register access lands. -/

namespace Sys2Proof.Machine

/-- An access has a slot exactly when it is one of R22. -/
theorem slotAt_none_iff {offset width : Nat} :
    slotAt offset width = none ↔ ¬(width = 8 ∧ offset % 8 = 0 ∧ offset < 256) := by
  simp [slotAt]

theorem slotAt_aligned {offset : Nat} (h8 : offset % 8 = 0) (h256 : offset < 256) :
    slotAt offset 8 = some (slotOfIndex (offset / 8)) := by
  simp [slotAt, h8, h256]

theorem offset_slotOfIndex : ∀ k < 32, slotOfIndex k ≠ .reserved → (slotOfIndex k).offset = 8 * k := by decide

/-- A slot that is not reserved is reached at its own offset of R22 only. -/
theorem offset_of_slotAt {offset width : Nat} {r : Slot} (h : slotAt offset width = some r) (hr : r ≠ .reserved) :
    offset = r.offset := by
  obtain ⟨-, h8, h256, rfl⟩ := slotAt_some h
  rw [offset_slotOfIndex _ (by omega) hr]
  omega

/-- From 0x80 on every slot is reserved (R22). -/
theorem slotOfIndex_reserved {k : Nat} (h : 16 ≤ k) : slotOfIndex k = .reserved := by
  obtain ⟨j, rfl⟩ := Nat.exists_eq_add_of_le' h
  rfl

theorem operand_offset_bounds (o : OperandReg) :
    0x20 ≤ (Slot.operand o).offset ∧ (Slot.operand o).offset ≤ 0x70 := by
  cases o <;> decide

theorem slotOfIndex_offset (r : Slot) : slotOfIndex (r.offset / 8) = r := by
  cases r
  case operand o => cases o <;> rfl
  all_goals rfl

@[simp] theorem writeSlot_env (s : State) (v : DWord) (r : Slot) : (s.writeSlot v r).env = s.env := by
  obtain ⟨-, -, -, -, -, h⟩ := writeSlot_keeps s v r
  exact h

/-- The slots whose writes are dropped while BUSY = 1: CMD, CTR and the operand registers (R29). -/
def Slot.guarded : Slot → Bool
  | .cmd | .ctr | .operand _ => true
  | .status | .ctrl | .outLen | .reserved => false

/-- While BUSY = 1 a write of a guarded slot is dropped and sets OVR (R29). -/
theorem writeSlot_busy {s : State} {r : Slot} (hb : s.busy = true) (hg : r.guarded = true) (v : DWord) :
    s.writeSlot v r = { s with ovr := true } := by
  cases r
  case cmd | ctr | operand => simp [State.writeSlot, State.issue, State.unlessBusy, hb]
  all_goals cases hg

/-- An accepted issue (R71). -/
theorem writeSlot_cmd {s : State} (hb : s.busy = false) (v : DWord) :
    s.writeSlot v .cmd = { s with latch := v, busy := true, done := false } := by
  simp [State.writeSlot, State.issue, State.unlessBusy, hb]

theorem writeSlot_ctr {s : State} (hb : s.busy = false) (v : DWord) :
    s.writeSlot v .ctr = { s with ctr := v.setWidth 32 } := by
  simp [State.writeSlot, State.unlessBusy, hb]

theorem writeSlot_operand {s : State} (hb : s.busy = false) (v : DWord) (o : OperandReg) :
    s.writeSlot v (.operand o) = { s with opr := s.opr.put o v } := by
  simp [State.writeSlot, State.unlessBusy, hb]

/-- A HOST action that is done and the scheduling after it leave the CORE as the action left it. -/
theorem settle_advance (s u : State) (new : List Seen) (hu : u.env = { s.env with seen := new ++ s.env.seen })
    {e : Event} {rest : List Event} (ha : s.env.agenda = e :: rest) :
    HostActed s (s.settle u.advance) rest new ∧
      s.settle u.advance = { u with env := (s.settle u.advance).env } := by
  obtain ⟨l, p, he⟩ := settle_eq s u.advance
  rw [he]
  simp [HostActed, hu, ha, State.advance]

/-- The step in which a HOST write of a slot lands (R22, R81). -/
theorem step_write {s : State} {offset : Nat} {v : DWord} {rest : List Event} {r : Slot}
    (hl : Lands s (.host (.wr offset 8 v)) rest) (hr : slotAt offset 8 = some r) :
    ∃ t, step s = .next t ∧ HostActed s t rest [] ∧ t = { s.writeSlot v r with env := t.env } := by
  obtain ⟨hacted, heq⟩ := settle_advance s (s.writeSlot v r) [] (writeSlot_env s v r) hl.1
  refine ⟨_, ?_, hacted, heq⟩
  rw [step_lands hl]
  simp [State.land, State.hostAct, hr]

/-- The step in which a HOST read of a slot lands (R22, R60, R81). -/
theorem step_read {s : State} {offset : Nat} {rest : List Event} {r : Slot}
    (hl : Lands s (.host (.rd offset 8)) rest) (hr : slotAt offset 8 = some r) :
    ∃ t, step s = .next t ∧ HostActed s t rest [.reg offset (s.readSlot r)] ∧ t = { s with env := t.env } := by
  obtain ⟨hacted, heq⟩ := settle_advance s (s.note (.reg offset (s.readSlot r))) [.reg offset (s.readSlot r)] rfl hl.1
  refine ⟨_, ?_, hacted, heq⟩
  rw [step_lands hl]
  simp [State.land, State.hostAct, hr]

/-- Settles O39: an access that reaches no slot is refused (R22). -/
theorem undefinedRegisterAccessIsRefused : Obligations.UndefinedRegisterAccessIsRefused := by
  intro s offset width v rest h
  have hn := slotAt_none_iff.mpr h
  constructor
  · intro hl
    rw [step_lands hl]
    simp [State.land, State.hostAct, hn]
  · intro hl
    rw [step_lands hl]
    simp [State.land, State.hostAct, hn]

/-- The step in which a write of an operand register lands (R29, R35). -/
theorem step_write_operand {s : State} {offset : Nat} {v : DWord} {rest : List Event} {o : OperandReg}
    (hl : Lands s (.host (.wr offset 8 v)) rest) (hr : slotAt offset 8 = some (.operand o)) :
    ∃ t, step s = .next t ∧ HostActed s t rest [] ∧
      (s.busy = true → t = { s with ovr := true, env := t.env }) ∧
      (s.busy = false → t = { s with opr := s.opr.put o v, env := t.env }) := by
  obtain ⟨t, hstep, hacted, ht⟩ := step_write hl hr
  refine ⟨t, hstep, hacted, fun hb => ?_, fun hb => ?_⟩
  · rwa [writeSlot_busy hb rfl] at ht
  · rwa [writeSlot_operand hb] at ht

/-- Settles O36: CTR at 0x18, and at each other offset of the list its operand register. -/
theorem operandRegisterWrites : Obligations.OperandRegisterWrites := by
  intro s offset v rest hl hmem
  simp only [List.mem_cons, List.not_mem_nil, or_false] at hmem
  rcases hmem with rfl | hmem
  · obtain ⟨t, hstep, hacted, ht⟩ := step_write (r := .ctr) hl rfl
    refine ⟨t, hstep, hacted, fun hb => ?_, fun hb => ?_⟩
    · rwa [writeSlot_busy hb rfl] at ht
    · rw [writeSlot_ctr hb] at ht
      simpa using ht
  · rcases hmem with rfl | rfl | rfl | rfl | rfl | rfl | rfl | rfl | rfl | rfl | rfl <;>
    · obtain ⟨t, hstep, hacted, hbusy, hidle⟩ := step_write_operand hl rfl
      exact ⟨t, hstep, hacted, hbusy, fun hb => by simpa [OperandRegs.put] using hidle hb⟩

/-- A write of STATUS, its bits as integers (R32). -/
theorem clearStatus_eq (s : State) (v : DWord) :
    s.clearStatus v = { s with done := if v.toNat / 2 % 2 = 1 then false else s.done,
                               ovr := if v.toNat / 8 % 2 = 1 then false else s.ovr } := by
  simp only [State.clearStatus, getLsbD_eq_decide]
  congr 1
  · split <;> simp_all
  · split <;> simp_all

/-- From 0x78 on a write is ignored: OUT_LEN and the reserved slots (R23, R37). -/
theorem writeSlot_ignored {s : State} {k : Nat} (hk : 15 ≤ k) (v : DWord) : s.writeSlot v (slotOfIndex k) = s := by
  rcases Nat.eq_or_lt_of_le hk with rfl | hk
  · rfl
  · rw [slotOfIndex_reserved hk]
    rfl

/-- Settles O37: one case per kind of slot. -/
theorem statusControlAndReservedWrites : Obligations.StatusControlAndReservedWrites := by
  intro s offset v rest hl h8 h256
  refine ⟨?_, ?_, fun hi => ?_⟩
  · rintro rfl
    obtain ⟨t, hstep, hacted, ht⟩ := step_write (r := .status) hl rfl
    rw [State.writeSlot, clearStatus_eq] at ht
    exact ⟨t, hstep, hacted, ht⟩
  · rintro rfl
    obtain ⟨t, hstep, hacted, ht⟩ := step_write (r := .ctrl) hl rfl
    rw [State.writeSlot, State.writeCtrl, getLsbD_eq_decide, Nat.pow_zero, Nat.div_one] at ht
    exact ⟨t, hstep, hacted, ht⟩
  · obtain ⟨t, hstep, hacted, ht⟩ := step_write hl (slotAt_aligned h8 h256)
    rw [writeSlot_ignored (by omega)] at ht
    exact ⟨t, hstep, hacted, ht⟩

/-- Settles O38: each slot's own offset reads the slot, STATUS as `statusWord_toNat` says. -/
theorem registerReads : Obligations.RegisterReads := by
  intro s offset rest hl h8 h256
  obtain ⟨t, hstep, hacted, ht⟩ := step_read hl (slotAt_aligned h8 h256)
  have value : ∀ r : Slot, offset = r.offset → s.readSlot (slotOfIndex (offset / 8)) = s.readSlot r := by
    rintro r rfl
    rw [slotOfIndex_offset]
  refine ⟨t, _, hstep, hacted, ht, value .cmd, fun h => ?status, fun h => ?ctrl, fun h => ?ctr,
    value (.operand .keyPtr), value (.operand .keyLen), value (.operand .noncePtr), value (.operand .nonceLen),
    value (.operand .srcPtr), value (.operand .srcLen), value (.operand .aadPtr), value (.operand .aadLen),
    value (.operand .auxPtr), value (.operand .auxLen), value (.operand .dstPtr), value .outLen, fun h => ?reserved⟩
  case status =>
    rw [value .status h]
    refine (statusWord_toNat s).trans ?_
    rcases s.err with _ | e
    · rfl
    · cases e <;> rfl
  case ctrl =>
    rw [value .ctrl h, State.readSlot, State.ctrlWord]
    cases s.ie <;> rfl
  case ctr =>
    rw [value .ctr h, State.readSlot, BitVec.toNat_setWidth_of_le (by decide)]
  case reserved =>
    rw [slotOfIndex_reserved (by omega)]
    rfl

end Sys2Proof.Machine
end

section
/-! SUPPORT. What can change a field of the CORE: every step sorted by its cause (spec/10_state.md R26 to R38), and the
statements that say which causes change which field. -/

namespace Sys2Proof.Machine

/-- Everything a step can do to the CORE, one constructor per cause. -/
inductive StepEffect (s : State) : State → Prop where
  /-- The ENGINE's step (R72). -/
  | engine {t : State} (hm : EngineMoves s) (h : s.engineStep = .next t) : StepEffect s t
  /-- A read, an ignored write, or the idle step: only what lies outside the CORE changes. -/
  | quiet (env : Env) : StepEffect s { s with env := env }
  /-- The reset input (R220). -/
  | reset (env : Env) (hl : LandsNext s .reset) : StepEffect s { s.resetInput with env := env }
  /-- An accepted write of CMD (R71). -/
  | issue (v : DWord) (env : Env) (hb : s.busy = false) (hl : LandsNext s (.host (.wr 0x00 8 v))) :
      StepEffect s { s with latch := v, busy := true, done := false, env := env }
  /-- A write of STATUS (R32). -/
  | status (v : DWord) (env : Env) (hl : LandsNext s (.host (.wr 0x08 8 v))) :
      StepEffect s { s.clearStatus v with env := env }
  /-- A write of CTRL (R33). -/
  | control (v : DWord) (env : Env) (hl : LandsNext s (.host (.wr 0x10 8 v))) :
      StepEffect s { s.writeCtrl v with env := env }
  /-- A stored write of CTR or of an operand register (R34, R35). -/
  | operand (offset : Nat) (v : DWord) (o : OperandRegs) (c : Word) (env : Env) (hb : s.busy = false)
      (hl : LandsNext s (.host (.wr offset 8 v))) (ho : 0x18 ≤ offset ∧ offset ≤ 0x70) :
      StepEffect s { s with opr := o, ctr := c, env := env }
  /-- A dropped write of CMD, CTR or an operand register (R29). -/
  | dropped (offset : Nat) (v : DWord) (env : Env) (hb : s.busy = true)
      (hl : LandsNext s (.host (.wr offset 8 v))) (ho : offset = 0x00 ∨ (0x18 ≤ offset ∧ offset ≤ 0x70)) :
      StepEffect s { s with ovr := true, env := env }
  /-- A HOST data write (R58). -/
  | data (addr : DWord) (bs : List Byte) (env : Env)
      (hl : LandsNext s (.host (.mw addr bs)) ∨ ∃ v, LandsNext s (.host (.st addr bs.length v))) :
      StepEffect s { s with mem := s.mem.writeBytes addr.toNat bs, env := env }

/-- A guarded slot lies at 0x00 or between 0x18 and 0x70 (R22). -/
theorem guarded_offset {r : Slot} (hg : r.guarded = true) :
    r.offset = 0x00 ∨ (0x18 ≤ r.offset ∧ r.offset ≤ 0x70) := by
  cases r
  case cmd => exact .inl rfl
  case ctr => exact .inr ⟨by decide, by decide⟩
  case operand o =>
    obtain ⟨hlo, hhi⟩ := operand_offset_bounds o
    exact .inr ⟨by omega, hhi⟩
  all_goals cases hg

/-- The effect of a write of a slot, by the slot and BUSY. -/
theorem stepEffect_writeSlot {s : State} {offset : Nat} {v : DWord} {r : Slot} (env : Env)
    (hl : LandsNext s (.host (.wr offset 8 v))) (hr : slotAt offset 8 = some r) :
    StepEffect s { s.writeSlot v r with env := env } := by
  have ho : r ≠ .reserved → offset = r.offset := offset_of_slotAt hr
  by_cases hd : r.guarded = true ∧ s.busy = true
  · obtain ⟨hg, hb⟩ := hd
    obtain rfl := ho (by rintro rfl; cases hg)
    rw [writeSlot_busy hb hg]
    exact .dropped _ v env hb hl (guarded_offset hg)
  · have hidle : r.guarded = true → s.busy = false := fun hg => by simpa using fun hb => hd ⟨hg, hb⟩
    cases r
    case cmd =>
      obtain rfl := ho nofun
      rw [writeSlot_cmd (hidle rfl)]
      exact .issue v env (hidle rfl) hl
    case status =>
      obtain rfl := ho nofun
      exact .status v env hl
    case ctrl =>
      obtain rfl := ho nofun
      exact .control v env hl
    case ctr =>
      obtain rfl := ho nofun
      rw [writeSlot_ctr (hidle rfl)]
      exact .operand _ v s.opr _ env (hidle rfl) hl ⟨by decide, by decide⟩
    case operand o =>
      obtain rfl := ho nofun
      obtain ⟨hlo, hhi⟩ := operand_offset_bounds o
      rw [writeSlot_operand (hidle rfl)]
      exact .operand _ v _ s.ctr env (hidle rfl) hl ⟨by omega, hhi⟩
    case outLen | reserved => exact .quiet env

/-- Every step has one of the effects. -/
theorem stepEffect_of_step {s t : State} (h : step s = .next t) : StepEffect s t := by
  rcases step_next h with ⟨hm, he⟩ | ⟨env, rfl⟩ | ⟨hl, env, rfl⟩ | ⟨offset, v, r, env, hl, hr, rfl⟩ |
    ⟨addr, bs, env, -, hl, rfl⟩
  · exact .engine hm he
  · exact .quiet env
  · exact .reset env hl
  · exact stepEffect_writeSlot env hl hr
  · exact .data addr bs env hl

/-! ### A cause that is known -/

theorem next_of_engineMoves {s t : State} (hm : EngineMoves s) (h : step s = .next t) : s.engineStep = .next t := by
  rwa [step_engine (engineTurn_iff.mpr hm)] at h

theorem next_of_reset {s t : State} (hl : LandsNext s .reset) (h : step s = .next t) :
    ∃ env, t = { s.resetInput with env := env } := by
  obtain ⟨rest, hl⟩ := hl
  rcases step_reset hl with ⟨r, -, h'⟩ | ⟨-, env, -, -, -, h'⟩
  · rw [h'] at h; cases h
  · rw [h'] at h; cases h; exact ⟨env, rfl⟩

theorem next_of_write {s t : State} {offset : Nat} {v : DWord} {r : Slot}
    (hl : LandsNext s (.host (.wr offset 8 v))) (hr : slotAt offset 8 = some r) (h : step s = .next t) :
    t = { s.writeSlot v r with env := t.env } := by
  obtain ⟨rest, hl⟩ := hl
  obtain ⟨u, hu, -, ht⟩ := step_write hl hr
  rw [hu, Host.Outcome.next.injEq] at h
  rwa [h] at ht

theorem next_of_issue {s t : State} {v : DWord} (hb : s.busy = false) (hl : LandsNext s (.host (.wr 0x00 8 v)))
    (h : step s = .next t) : t = { s with latch := v, busy := true, done := false, env := t.env } := by
  have ht := next_of_write (r := .cmd) hl rfl h
  rwa [writeSlot_cmd hb] at ht

theorem next_of_status {s t : State} {v : DWord} (hl : LandsNext s (.host (.wr 0x08 8 v))) (h : step s = .next t) :
    t = { s with done := if v.toNat / 2 % 2 = 1 then false else s.done,
                 ovr := if v.toNat / 8 % 2 = 1 then false else s.ovr, env := t.env } := by
  have ht := next_of_write (r := .status) hl rfl h
  rwa [State.writeSlot, clearStatus_eq] at ht

/-! ### A field and the causes that change it -/

/-- BUSY and the latch: kept, or completion, issue, reset (R26). -/
theorem StepEffect.busy_latch {s t : State} (h : StepEffect s t) :
    (t.busy = s.busy ∧ t.latch = s.latch) ∨ (EngineMoves s ∧ t.latch = s.latch) ∨
      (s.busy = false ∧ t.busy = true ∧ LandsNext s (.host (.wr 0x00 8 t.latch))) ∨ LandsNext s .reset := by
  cases h with
  | engine hm h =>
    obtain ⟨-, -, -, -, -, -, -, hlatch, -⟩ := engineStep_next h
    exact .inr (.inl ⟨hm, hlatch⟩)
  | reset env hl => exact .inr (.inr (.inr hl))
  | issue v env hb hl => exact .inr (.inr (.inl ⟨hb, rfl, hl⟩))
  | _ => exact .inl ⟨rfl, rfl⟩

/-- DONE: kept, or completion, issue, acknowledgement, reset (R27). -/
theorem StepEffect.done {s t : State} (h : StepEffect s t) :
    t.done = s.done ∨ (EngineMoves s ∧ t.done = true) ∨
      (t.done = false ∧ ((∃ v, s.busy = false ∧ LandsNext s (.host (.wr 0x00 8 v))) ∨
        (∃ v, LandsNext s (.host (.wr 0x08 8 v)) ∧ v.toNat / 2 % 2 = 1) ∨ LandsNext s .reset)) := by
  cases h with
  | engine hm h =>
    obtain ⟨-, hdone, -⟩ := engineStep_next h
    exact .inr (.inl ⟨hm, hdone⟩)
  | reset env hl => exact .inr (.inr ⟨rfl, .inr (.inr hl)⟩)
  | issue v env hb hl => exact .inr (.inr ⟨rfl, .inl ⟨v, hb, hl⟩⟩)
  | status v env hl =>
    rw [clearStatus_eq]
    by_cases hv : v.toNat / 2 % 2 = 1
    · exact .inr (.inr ⟨if_pos hv, .inr (.inl ⟨v, hl, hv⟩)⟩)
    · exact .inl (if_neg hv)
  | _ => exact .inl rfl

/-- OVR: kept, or a dropped write, an acknowledgement, reset (R29). -/
theorem StepEffect.ovr {s t : State} (h : StepEffect s t) :
    t.ovr = s.ovr ∨
      (t.ovr = true ∧ s.busy = true ∧ ∃ offset v, LandsNext s (.host (.wr offset 8 v)) ∧
        (offset = 0x00 ∨ (0x18 ≤ offset ∧ offset ≤ 0x70))) ∨
      (t.ovr = false ∧ ((∃ v, LandsNext s (.host (.wr 0x08 8 v)) ∧ v.toNat / 8 % 2 = 1) ∨ LandsNext s .reset)) := by
  cases h with
  | engine hm h =>
    obtain ⟨-, -, -, -, -, -, hovr, -⟩ := engineStep_next h
    exact .inl hovr
  | reset env hl => exact .inr (.inr ⟨rfl, .inr hl⟩)
  | dropped offset v env hb hl ho => exact .inr (.inl ⟨rfl, hb, offset, v, hl, ho⟩)
  | status v env hl =>
    rw [clearStatus_eq]
    by_cases hv : v.toNat / 8 % 2 = 1
    · exact .inr (.inr ⟨if_pos hv, .inl ⟨v, hl, hv⟩⟩)
    · exact .inl (if_neg hv)
  | _ => exact .inl rfl

/-- The operand registers and CTR: kept, or stored by the HOST while BUSY = 0, or reset (R34, R35). -/
theorem StepEffect.operands {s t : State} (h : StepEffect s t) :
    (t.opr = s.opr ∧ t.ctr = s.ctr) ∨
      (s.busy = false ∧ ∃ offset v, LandsNext s (.host (.wr offset 8 v)) ∧ 0x18 ≤ offset ∧ offset ≤ 0x70) ∨
      LandsNext s .reset := by
  cases h with
  | engine hm h =>
    obtain ⟨-, -, -, hopr, hctr, -⟩ := engineStep_next h
    exact .inl ⟨hopr, hctr⟩
  | reset env hl => exact .inr (.inr hl)
  | operand offset v o c env hb hl ho => exact .inr (.inl ⟨hb, offset, v, hl, ho⟩)
  | _ => exact .inl ⟨rfl, rfl⟩

/-- IE: kept, or written by the HOST, or reset (R33). -/
theorem StepEffect.ie {s t : State} (h : StepEffect s t) :
    t.ie = s.ie ∨ (∃ v, LandsNext s (.host (.wr 0x10 8 v))) ∨ LandsNext s .reset := by
  cases h with
  | engine hm h =>
    obtain ⟨-, -, -, -, -, hie, -⟩ := engineStep_next h
    exact .inl hie
  | reset env hl => exact .inr (.inr hl)
  | control v env hl => exact .inr (.inl ⟨v, hl⟩)
  | _ => exact .inl rfl

/-- RESULT, ERR, OUT_LEN and the streaming context: kept, or completion, or reset (R28, R30, R36, R37). -/
theorem StepEffect.completion {s t : State} (h : StepEffect s t) :
    (t.result = s.result ∧ t.err = s.err ∧ t.outLen = s.outLen ∧ t.ctx = s.ctx) ∨ EngineMoves s ∨
      LandsNext s .reset := by
  cases h with
  | engine hm h => exact .inr (.inl hm)
  | reset env hl => exact .inr (.inr hl)
  | _ => exact .inl ⟨rfl, rfl, rfl, rfl⟩

/-- Data memory: kept, or completion, reset, a HOST data write (R42). -/
theorem StepEffect.mem {s t : State} (h : StepEffect s t) :
    t.mem = s.mem ∨ EngineMoves s ∨ LandsNext s .reset ∨
      (∃ addr bs, LandsNext s (.host (.mw addr bs))) ∨ ∃ addr n v, LandsNext s (.host (.st addr n v)) := by
  cases h with
  | engine hm h => exact .inr (.inl hm)
  | reset env hl => exact .inr (.inr (.inl hl))
  | data addr bs env hl => exact .inr (.inr (.inr (hl.imp (fun h => ⟨addr, bs, h⟩) fun ⟨v, h⟩ => ⟨addr, _, v, h⟩)))
  | _ => exact .inl rfl

/-- MEM_BYTES is a parameter: no step changes it (R3). -/
theorem StepEffect.cfg {s t : State} (h : StepEffect s t) : t.cfg = s.cfg := by
  cases h with
  | engine hm h =>
    obtain ⟨-, -, -, -, -, -, -, -, hcfg, -⟩ := engineStep_next h
    exact hcfg
  | _ => rfl

/-- An ENGINE step that changes the context is the success of P.INIT, P.ABSORB or P.FINAL (R36, R193). -/
theorem engineStep_ctx {s t : State} (h : s.engineStep = .next t) (hc : t.ctx ≠ s.ctx) :
    t.err = none ∧ (decode s.latch = .ok .pInit ∨ decode s.latch = .ok .pAbsorb ∨ decode s.latch = .ok .pFinal) := by
  rcases engineStep_cases s with ⟨i, hd, h'⟩ | ⟨e, -, h'⟩
  · rw [h'] at h
    rcases exec_next h with ⟨e, rfl, -⟩ | ⟨-, -, -, rfl⟩
    · exact absurd rfl hc
    · refine ⟨rfl, ?_⟩
      rw [hd]
      by_contra hn
      simp only [Except.ok.injEq, not_or] at hn
      obtain ⟨h1, h2, h3⟩ := hn
      exact hc (ctxAfter_eq h1 h2 h3)
  · rw [h'] at h
    cases h
    exact absurd rfl hc

/-- Settles O45: the known causes by `next_of_…`, the converse by `StepEffect.busy_latch`. -/
theorem busyAndLatchChangeOnlyAsStated : Obligations.BusyAndLatchChangeOnlyAsStated := by
  intro s t h
  have hends : EngineMoves s → t.busy = false := fun hm => by
    obtain ⟨hbusy, -⟩ := engineStep_next (next_of_engineMoves hm h)
    exact hbusy
  refine ⟨fun v hb hl => ?_, hends, fun hl => ?_, ?_⟩
  · rw [next_of_issue hb hl h]
    exact ⟨rfl, rfl⟩
  · obtain ⟨env, rfl⟩ := next_of_reset hl h
    exact ⟨rfl, rfl⟩
  · rcases (stepEffect_of_step h).busy_latch with ⟨hbusy, hlatch⟩ | ⟨hm, hlatch⟩ | ⟨hb, hb', hl⟩ | hl
    · rw [hbusy]
      exact ⟨fun h0 h1 => by simp [h0] at h1, fun h1 h0 => by simp [h0] at h1, fun hne => absurd hlatch hne⟩
    · have hb : s.busy = true := hm.1
      exact ⟨fun h0 => by simp [h0] at hb, fun _ _ => .inl hm, fun hne => absurd hlatch hne⟩
    · exact ⟨fun _ _ => hl, fun h1 => by simp [hb] at h1, fun _ => .inl ⟨hb, hl⟩⟩
    · obtain ⟨env, rfl⟩ := next_of_reset hl h
      exact ⟨fun _ h1 => absurd h1 Bool.false_ne_true, fun _ _ => .inr hl, fun _ => .inr hl⟩

/-- Settles O46: the known causes by `next_of_…`, the converse by `StepEffect.done`. -/
theorem doneChangesExactlyAsStated : Obligations.DoneChangesExactlyAsStated := by
  intro s t h
  refine ⟨fun hm => ?_, fun v hb hl => ?_, fun v hl => ?_, ?_⟩
  · obtain ⟨-, hdone, -⟩ := engineStep_next (next_of_engineMoves hm h)
    exact hdone
  · rw [next_of_issue hb hl h]
  · rw [next_of_status hl h]
  · rcases (stepEffect_of_step h).done with hkept | ⟨hm, hset⟩ | ⟨hcleared, hcause⟩
    · rw [hkept]
      exact ⟨fun h0 h1 => by simp [h0] at h1, fun h1 h0 => by simp [h0] at h1⟩
    · exact ⟨fun _ _ => hm, fun _ h0 => by simp [hset] at h0⟩
    · exact ⟨fun _ h1 => by simp [hcleared] at h1, fun _ _ => hcause⟩

/-- The offsets of the writes that BUSY = 1 drops are those of guarded slots (R29). -/
theorem guarded_of_offset {offset : Nat}
    (h : offset ∈ [0x00, 0x18, 0x20, 0x28, 0x30, 0x38, 0x40, 0x48, 0x50, 0x58, 0x60, 0x68, 0x70]) :
    ∃ r, slotAt offset 8 = some r ∧ r.guarded = true := by
  have hall : ∀ o ∈ [0x00, 0x18, 0x20, 0x28, 0x30, 0x38, 0x40, 0x48, 0x50, 0x58, 0x60, 0x68, 0x70],
      (slotAt o 8).any Slot.guarded = true := by decide
  exact (Option.any_eq_true ..).mp (hall offset h)

/-- Settles O47: the known causes by `next_of_…`, the converse by `StepEffect.ovr`. -/
theorem ovrChangesExactlyAsStated : Obligations.OvrChangesExactlyAsStated := by
  intro s t h
  refine ⟨fun offset v hb hl ho => ?_, fun v hl hv => ?_, fun hl => ?_, ?_⟩
  · obtain ⟨r, hr, hg⟩ := guarded_of_offset ho
    have ht := next_of_write hl hr h
    rwa [writeSlot_busy hb hg] at ht
  · rw [next_of_status hl h]
    exact if_pos hv
  · obtain ⟨env, rfl⟩ := next_of_reset hl h
    rfl
  · rcases (stepEffect_of_step h).ovr with hkept | ⟨hset, hcause⟩ | ⟨hcleared, hcause⟩
    · rw [hkept]
      exact ⟨fun h0 h1 => by simp [h0] at h1, fun h1 h0 => by simp [h0] at h1⟩
    · exact ⟨fun _ _ => hcause, fun _ h0 => by simp [hset] at h0⟩
    · exact ⟨fun _ h1 => by simp [hcleared] at h1, fun _ _ => hcause⟩

/-- Settles O48: the field lemmas of `StepEffect`. -/
theorem operandsChangeOnlyByTheHost : Obligations.OperandsChangeOnlyByTheHost := by
  intro s t h
  have he := stepEffect_of_step h
  constructor
  · intro hne
    rcases he.operands with ⟨hopr, hctr⟩ | hcause
    · exact absurd hctr (hne.resolve_left (absurd hopr))
    · exact hcause
  · exact he.ie.resolve_left

/-- Settles O49: the field lemmas of `StepEffect`, and `engineStep_ctx` for the context. -/
theorem completionStateChangesOnlyAsStated : Obligations.CompletionStateChangesOnlyAsStated := by
  intro s t h
  have he := stepEffect_of_step h
  refine ⟨by rw [State.memBytes, he.cfg, State.memBytes], fun hne => ?_, fun hne => ?_, he.mem.resolve_left⟩
  · rcases he.completion with ⟨-, herr, hout, -⟩ | hcause
    · exact absurd hout (hne.resolve_left (absurd herr))
    · exact hcause
  · rcases he.completion with ⟨-, -, -, hctx⟩ | hm | hl
    · exact absurd hctx hne
    · exact .inl ⟨hm, engineStep_ctx (next_of_engineMoves hm h) hne⟩
    · exact .inr hl

/-- Settles O12: `resultOf_iff` for a command that succeeds, RESULT 0 after an error (R193). -/
theorem resultIsOneExactlyWhenStated : Obligations.ResultIsOneExactlyWhenStated := by
  refine ⟨fun i s t h => ?_, fun s t hm hd h => ?_, fun s t h hne => ?_⟩
  · rcases exec_next h with ⟨e, rfl, -⟩ | ⟨-, -, -, rfl⟩
    · simp
    · have herr : (succeeded s i).err = none := rfl
      simp only [herr, true_and, and_true]
      exact resultOf_iff s i
  · have he := next_of_engineMoves hm h
    rcases engineStep_cases s with ⟨i, hi, -⟩ | ⟨e, -, h'⟩
    · exact absurd hi (hd i)
    · rw [h'] at he
      cases he
      rfl
  · rcases (stepEffect_of_step h).completion with ⟨hresult, -⟩ | hcause
    · exact absurd hresult hne
    · exact hcause

/-- A reset while no command with an output range is latched draws nothing (R221, log 5). -/
theorem abandonedCount_eq_zero {s : State} (h : s.busy = false ∨ ∀ i, decode s.latch ≠ .ok i) :
    s.abandonedCount = 0 := by
  unfold State.abandonedCount
  split
  · next hb =>
    split
    · next i hi => exact absurd hi (h.resolve_left (by simp [hb]) i)
    · rfl
  · rfl

/-- STATUS reads 0 after a reset (R45). -/
theorem statusWord_resetInput (s : State) (env : Env) :
    State.statusWord { s.resetInput with env := env } = 0 := by
  apply BitVec.eq_of_toNat_eq
  rw [statusWord_toNat]
  rfl

/-- Settles O51: where the reset is not refused, `State.resetInput` has every field of R45. -/
theorem resetRestoresTheTable : Obligations.ResetRestoresTheTable := by
  intro s rest hl
  refine ⟨fun i r hb hd hx => ?_, fun hx => ?_⟩
  · have hr : s.resetRefusal = some r := resetRefusal_some.mpr ⟨hb, i, hd, hx⟩
    rcases step_reset hl with ⟨r', hr', h⟩ | ⟨hn, -⟩
    · rw [hr, Option.some.injEq] at hr'
      rw [h, hr']
    · rw [hr] at hn
      cases hn
  · have hn : s.resetRefusal = none := resetRefusal_none.mpr hx
    rcases step_reset hl with ⟨r, hr, -⟩ | ⟨-, env, hagenda, hpos, hseen, h⟩
    · rw [hr] at hn
      cases hn
    · refine ⟨_, h, hagenda, hpos, hseen, statusWord_resetInput s env, rfl, rfl, rfl, rfl, rfl, rfl, rfl,
        rfl, rfl, rfl, fun hidle a => ?_⟩
      simp only [resetInput_mem, abandonedCount_eq_zero hidle]
      rfl

end Sys2Proof.Machine
end

section
/-! SUPPORT. What the HOST cannot see (spec/10_state.md R44): a HOST action on a state with another latch, scratch and
context does the same, as long as BUSY = 0 and PCTX is the same. -/

namespace Sys2Proof.Machine

/-- `s` with another latch, scratch and context: what R44 hides but for PCTX. -/
def State.withHidden (s : State) (l : DWord) (x : Scratch) (c : PolyCtx) : State :=
  { s with latch := l, scratch := x, ctx := c }

section
variable {s : State} (l : DWord) (x : Scratch) {c : PolyCtx}

/-- A read shows of the hidden state PCTX only (R31, R44). -/
theorem readSlot_withHidden (hc : c.pctx = s.ctx.pctx) (r : Slot) :
    (s.withHidden l x c).readSlot r = s.readSlot r := by
  cases r
  case status => simp [State.readSlot, State.statusWord, State.withHidden, hc]
  all_goals rfl

/-- A write of a slot with BUSY = 0 acts alike on the hidden state; CMD writes the latch. -/
theorem writeSlot_withHidden (hb : s.busy = false) (v : DWord) (r : Slot) :
    ∃ l', (s.withHidden l x c).writeSlot v r = (s.writeSlot v r).withHidden l' x c := by
  have hb' : (s.withHidden l x c).busy = false := hb
  cases r
  case cmd => rw [writeSlot_cmd hb, writeSlot_cmd hb']; exact ⟨v, rfl⟩
  case ctr => rw [writeSlot_ctr hb, writeSlot_ctr hb']; exact ⟨l, rfl⟩
  case operand o => rw [writeSlot_operand hb, writeSlot_operand hb']; exact ⟨l, rfl⟩
  all_goals exact ⟨l, rfl⟩

/-- With BUSY = 0 the latched command's ranges do not matter to a HOST access (R59). -/
theorem hostRefusal_withHidden (hb : s.busy = false) (a n : Nat) :
    (s.withHidden l x c).hostRefusal a n = s.hostRefusal a n := by
  simp [State.hostRefusal, State.operandByte, State.withHidden, State.memBytes, hb]

theorem hostAccess_withHidden (hb : s.busy = false) {a n : Nat} {t u : State} (h : s.hostAccess a n t = .next u) :
    (s.withHidden l x c).hostAccess a n (t.withHidden l x c) = .next (u.withHidden l x c) := by
  obtain ⟨hr, rfl⟩ := hostAccess_next h
  simp [State.hostAccess, hostRefusal_withHidden l x hb, hr]

theorem hostUnit_withHidden (hb : s.busy = false) {a n : Nat} {t u : State} (h : s.hostUnit a n t = .next u) :
    (s.withHidden l x c).hostUnit a n (t.withHidden l x c) = .next (u.withHidden l x c) := by
  obtain ⟨hu, -⟩ := hostUnit_next h
  simp only [State.hostUnit, hu, if_true] at h ⊢
  exact hostAccess_withHidden l x hb h

/-- A HOST action with BUSY = 0 acts alike on the hidden state (R44). -/
theorem hostAct_withHidden (hb : s.busy = false) (hc : c.pctx = s.ctx.pctx) {a : HostAction} {t : State}
    (h : s.hostAct a = .next t) :
    ∃ l', (s.withHidden l x c).hostAct a = .next (t.withHidden l' x c) := by
  cases a with
  | wr offset width v =>
    cases hr : slotAt offset width with
    | none => simp [State.hostAct, hr] at h
    | some r =>
      obtain ⟨l', hw⟩ := writeSlot_withHidden l x (c := c) hb v r
      simp only [State.hostAct, hr, Host.Outcome.next.injEq] at h ⊢
      rw [← h, hw]
      exact ⟨l', rfl⟩
  | rd offset width =>
    cases hr : slotAt offset width with
    | none => simp [State.hostAct, hr] at h
    | some r =>
      simp only [State.hostAct, hr, Host.Outcome.next.injEq] at h ⊢
      rw [← h, readSlot_withHidden l x hc]
      exact ⟨l, rfl⟩
  | st addr n v => exact ⟨l, hostUnit_withHidden l x hb h⟩
  | ld addr n => exact ⟨l, hostUnit_withHidden l x hb h⟩
  | mw addr bs => exact ⟨l, hostAccess_withHidden l x hb h⟩
  | mr addr n => exact ⟨l, hostAccess_withHidden l x hb h⟩
  | wait =>
    have hs : (s.withHidden l x c).statusWord = s.statusWord := readSlot_withHidden l x hc .status
    have hidle : s.statusWord.getLsbD 0 = false := (statusWord_busy s).trans hb
    simp only [State.hostAct, hs, hidle, Bool.false_eq_true, if_false, Host.Outcome.next.injEq] at h ⊢
    rw [← h]
    exact ⟨l, rfl⟩

theorem settle_withHidden (t : State) (l' : DWord) :
    (s.withHidden l x c).settle (t.withHidden l' x c) = (s.settle t).withHidden l' x c := by
  have hissue : (!(s.withHidden l x c).busy && (t.withHidden l' x c).busy) = (!s.busy && t.busy) := rfl
  rw [State.settle, State.settle, hissue]
  split <;> rfl

end

/-- A HOST action does not touch the streaming context (R42). -/
theorem hostAct_ctx {s t : State} {a : HostAction} (h : s.hostAct a = .next t) : t.ctx = s.ctx := by
  rcases hostAct_next h with ⟨_, _, v, r, -, -, rfl⟩ | ⟨addr, bs, -, -, rfl⟩ | ⟨y, rfl | rfl⟩
  · obtain ⟨-, hctx, -⟩ := writeSlot_keeps s v r
    exact hctx
  all_goals rfl

/-- A HOST action that lands with a next state, taken apart. -/
theorem land_host_next {s t : State} {a : HostAction} (h : s.land (.host a) = .next t) :
    ∃ u, s.hostAct a = .next u ∧ t = s.settle u := by
  simp only [State.land] at h
  split at h
  · next u hu => cases h; exact ⟨u, hu, rfl⟩
  · cases h
  · cases h

/-- Settles O40: the hidden state's step is the same action, by `hostAct_withHidden`. -/
theorem hiddenStateIsNotReadable : Obligations.HiddenStateIsNotReadable := by
  intro s t a rest l x c hb hc hl h
  rw [step_lands hl] at h
  obtain ⟨u, hu, rfl⟩ := land_host_next h
  obtain ⟨l', hu'⟩ := hostAct_withHidden l x hb hc hu
  have hstep : step (s.withHidden l x c) = .next ((s.settle u).withHidden l' x c) := by
    have hl' : Lands (s.withHidden l x c) (.host a) rest := hl
    rw [step_lands hl']
    simp [State.land, hu', settle_withHidden]
  have hctx : c.pctx = (s.settle u).ctx.pctx := by
    obtain ⟨_, _, he⟩ := settle_eq s u
    rw [he]
    exact hc.trans (congrArg PolyCtx.pctx (hostAct_ctx hu).symm)
  exact ⟨_, hstep, rfl, rfl, readSlot_withHidden l' x hctx⟩

end Sys2Proof.Machine
end

section
/-! SUPPORT. Data memory from outside the CORE (spec/20_memory.md R52 to R59): what refuses a HOST data access, the step
in which one lands, and the overlap that refuses a command. -/

namespace Sys2Proof.Machine

/-- Settles O53: the laws of `readBytes` and `writeBytes`, byte by byte. -/
theorem memoryReadsWhatWasWritten : Obligations.MemoryReadsWhatWasWritten := by
  refine ⟨fun m a n => ?_, fun m a v => ⟨fun i h => Memory.read_writeBytes_inside h,
    fun x h => Memory.read_writeBytes_outside h, ?_⟩⟩
  · exact List.ext_getElem (by simp) fun i h1 h2 => by simp
  · rintro rfl
    rfl

/-- Settles O54. -/
theorem equalMemoriesAreEqualData : Obligations.EqualMemoriesAreEqualData :=
  ⟨fun _ a v h => Memory.writeBytes_wf h a v, fun _ _ h h' hr => Memory.ext_read h h' hr⟩

/-! ### The overlap that refuses a command -/

/-- The overlap R57 calls UNPREDICTABLE, in the terms of `Apart`. -/
theorem badOverlap_true {s : State} {i : Instr} :
    s.badOverlap i = true ↔ ∃ x ∈ s.inputs i, ¬Apart s.opr.dstPtr (s.outCount i) x.ptr x.len ∧
      ¬(x.who = .src ∧ x.ptr = s.opr.dstPtr) := by
  have hmeets : ∀ x : Range, (s.output i).meets x = false ↔ Apart s.opr.dstPtr (s.outCount i) x.ptr x.len :=
    fun _ => meets_false
  rw [← Bool.not_eq_false, badOverlap_false]
  simp only [hmeets, not_forall, not_or, exists_prop]

/-- No tag stands in the way of a success: of AE.OPEN it is that the envelope opens (R163, R166). -/
theorem authOk_iff {s : State} {i : Instr} :
    authOk s i = true ↔ (i = .aeOpen → ∃ p, openBytes (bytesAt s s.opr.keyPtr 32) (bytesAt s s.opr.noncePtr 12)
      (bytesAt s s.opr.srcPtr s.opr.srcLen.toNat) (bytesAt s s.opr.aadPtr s.opr.aadLen.toNat) = some p) := by
  cases i
  case aeOpen =>
    rw [authOk, Option.isSome_iff_exists]
    exact ⟨fun h _ => h, fun h => h rfl⟩
  all_goals exact ⟨fun _ => nofun, fun _ => rfl⟩

/-- Settles O10: of the three ends of `exec_cases` one is a refusal, and `exec_overlap` reaches it. -/
theorem commandsStopExactlyOnUndefinedOverlap : Obligations.CommandsStopExactlyOnUndefinedOverlap := by
  intro i s overlaps opens
  refine ⟨nofun, fun r h => ?_, fun hn ha ho => exec_overlap hn (badOverlap_true.mpr ho) (authOk_iff.mpr ha)⟩
  rcases exec_cases i s with ⟨e, h', -⟩ | ⟨-, -, -, h'⟩ | ⟨hn, ho, ha, h'⟩
  · rw [h'] at h; cases h
  · rw [h'] at h; cases h
  · rw [h'] at h
    cases h
    exact ⟨rfl, hn, authOk_iff.mp ha, badOverlap_true.mp ho⟩

/-! ### What refuses a HOST data access -/

theorem holds_iff {r : Range} {a : Nat} : r.holds a = true ↔ r.ptr.toNat ≤ a ∧ a < r.ptr.toNat + r.len := by
  simp [Range.holds]

/-- The bytes R59 keeps the HOST from: those in a range of the latched command while BUSY = 1. -/
theorem operandByte_iff {s : State} {a : Nat} :
    s.operandByte a = true ↔ s.busy = true ∧ ∃ i, decode s.latch = .ok i ∧
      ∃ r ∈ s.output i :: s.inputs i, r.ptr.toNat ≤ a ∧ a < r.ptr.toNat + r.len := by
  cases hd : decode s.latch <;> simp [State.operandByte, State.latchedRanges, hd, holds_iff]

/-- An access is clear of the latched command when none of its bytes is one R59 keeps the HOST from. -/
theorem clearOfCommand_iff {s : State} {p : DWord} {n : Nat} :
    ClearOfCommand s p n ↔ ∀ j < n, s.operandByte (p.toNat + j) = false := by
  constructor
  · intro hc j hj
    rw [← Bool.not_eq_true, operandByte_iff]
    rintro ⟨hb, i, hd, r, hr, hlo, hhi⟩
    exact hc hb i hd r hr (p.toNat + j) ⟨by omega, by omega, hlo, hhi⟩
  · rintro h hb i hd r hr a ⟨hlo, hhi, hr_lo, hr_hi⟩
    have hoff : p.toNat + (a - p.toNat) = a := by omega
    have ha := h (a - p.toNat) (by omega)
    rw [hoff, ← Bool.not_eq_true] at ha
    exact ha (operandByte_iff.mpr ⟨hb, i, hd, r, hr, hr_lo, hr_hi⟩)

section
variable {s : State} {addr : DWord} {n : Nat}

/-- R58: an access that is not empty and ends beyond data memory. -/
theorem hostRefusal_beyond (h0 : n ≠ 0) (h : s.memBytes < addr.toNat + n) :
    s.hostRefusal addr.toNat n = some .hostMemoryRange :=
  if_pos ⟨h0, h⟩

/-- Within data memory only the latched command's bytes refuse an access (R59). -/
theorem hostRefusal_of_fits (hf : Fits s addr n) :
    s.hostRefusal addr.toNat n =
      if (List.range n).any (fun j => s.operandByte (addr.toNat + j)) then some .hostTouchesOperand else none := by
  refine if_neg ?_
  rintro ⟨h0, h⟩
  exact absurd (hf.resolve_left h0) (by omega)

theorem hostRefusal_clear (hf : Fits s addr n) (hc : ClearOfCommand s addr n) : s.hostRefusal addr.toNat n = none := by
  rw [hostRefusal_of_fits hf, if_neg]
  simpa using clearOfCommand_iff.mp hc

theorem hostRefusal_touches (hf : Fits s addr n) (hc : ¬ClearOfCommand s addr n) :
    s.hostRefusal addr.toNat n = some .hostTouchesOperand := by
  rw [hostRefusal_of_fits hf, if_pos]
  simpa [clearOfCommand_iff] using hc

theorem hostAccess_clear (hf : Fits s addr n) (hc : ClearOfCommand s addr n) (t : State) :
    s.hostAccess addr.toNat n t = .next t := by
  simp [State.hostAccess, hostRefusal_clear hf hc]

theorem hostUnit_eq {a : Nat} (hn : 1 ≤ n ∧ n ≤ 8) (t : State) : s.hostUnit a n t = s.hostAccess a n t := by
  simp [State.hostUnit, unitSize, hn]

theorem hostUnit_badSize {a : Nat} (hn : ¬(1 ≤ n ∧ n ≤ 8)) (t : State) :
    s.hostUnit a n t = .refused .hostAccessSize := by
  rw [State.hostUnit, if_neg]
  simpa [unitSize] using hn

end

/-! ### The step in which a HOST data access lands -/

/-- The step in which a HOST action lands that is then done, from what the action does (R81). -/
theorem step_done {s u : State} {a : HostAction} {rest : List Event} {new : List Seen}
    (hl : Lands s (.host a) rest) (ha : s.hostAct a = .next u.advance)
    (hu : u.env = { s.env with seen := new ++ s.env.seen }) :
    ∃ t, step s = .next t ∧ HostActed s t rest new ∧ t = { u with env := t.env } := by
  obtain ⟨hacted, heq⟩ := settle_advance s u new hu hl.1
  exact ⟨_, by rw [step_lands hl, State.land, ha], hacted, heq⟩

/-- The step in which a HOST action lands that is refused. -/
theorem step_refused {s : State} {a : HostAction} {rest : List Event} {r : Refusal}
    (hl : Lands s (.host a) rest) (ha : s.hostAct a = .refused r) : step s = .refused r := by
  rw [step_lands hl, State.land, ha]

/-- The bytes of an integer that agrees with `bs` on the low bytes are `bs` (R6, R7). -/
theorem leBytes_eq_of_le {bs : List Byte} {x : Nat} (h : le bs = x % 256 ^ bs.length) : leBytes x bs.length = bs :=
  le_inj (length_leBytes ..) (by rw [le_leBytes, h])

/-- Byte `j` of a byte string, from its integer (R6). -/
theorem getElem_eq_le_div {bs : List Byte} {j : Nat} (h : j < bs.length) : bs[j] = BitVec.ofNat 8 (le bs / 256 ^ j) := by
  have hj := getElem_leBytes (le bs) bs.length j (by simpa using h)
  simpa only [leBytes_le] using hj

/-- A string of at most 8 bytes is the integer of a 64-bit value (R58). -/
theorem toNat_ofNat_le {bs : List Byte} (h : bs.length ≤ 8) : (BitVec.ofNat 64 (le bs)).toNat = le bs := by
  have hlt : le bs < 256 ^ 8 := lt_of_lt_of_le (le_lt bs) (Nat.pow_le_pow_right (by decide) h)
  rw [BitVec.toNat_ofNat, Nat.mod_eq_of_lt (by omega)]

/-- Settles O41: `mw` and `st` do the same to memory, and `step_done` gives the step. -/
theorem hostDataWrites : Obligations.HostDataWrites := by
  intro s addr bs v rest hf hc hl
  have hwrite : ∃ a, Lands s (.host a) rest ∧
      s.hostAct a = .next (State.advance { s with mem := s.mem.writeBytes addr.toNat bs }) := by
    rcases hl with hl | ⟨hl, h1, h8, hv⟩
    · exact ⟨_, hl, hostAccess_clear hf hc _⟩
    · refine ⟨_, hl, ?_⟩
      rw [State.hostAct, hostUnit_eq ⟨h1, h8⟩, hostAccess_clear hf hc, leBytes_eq_of_le hv]
  obtain ⟨a, hla, ha⟩ := hwrite
  obtain ⟨t, hstep, hacted, ht⟩ := step_done (new := []) hla ha rfl
  have hmem : t.mem = s.mem.writeBytes addr.toNat bs := by rw [ht]
  refine ⟨t, hstep, hacted, by rw [hmem]; exact ht, fun j hj => ?_, fun x hx => ?_⟩
  · rw [hmem, Memory.read_writeBytes_inside hj]
  · rw [hmem, Memory.read_writeBytes_outside hx]

/-- Settles O42: the bytes read are those of `readBytes`, and `ld` gives their integer. -/
theorem hostDataReads : Obligations.HostDataReads := by
  intro s addr n rest hf hc
  constructor
  · intro hl
    obtain ⟨t, hstep, hacted, ht⟩ :=
      step_done (u := s.note (.bytes addr (s.mem.readBytes addr.toNat n))) (new := [.bytes addr _]) hl
        (hostAccess_clear hf hc _) rfl
    exact ⟨t, _, hstep, hacted, ht, by simp, fun j hj => by simp⟩
  · intro hl h1 h8
    have ha := (hostUnit_eq ⟨h1, h8⟩ _).trans (hostAccess_clear hf hc
      (s.note (.word addr (BitVec.ofNat 64 (le (s.mem.readBytes addr.toNat n))))).advance)
    obtain ⟨t, hstep, hacted, ht⟩ := step_done (new := [.word addr _]) hl ha rfl
    have hlen : (s.mem.readBytes addr.toNat n).length = n := by simp
    refine ⟨t, _, hstep, hacted, ht, ?_, fun j hj => ?_⟩
    · rw [toNat_ofNat_le (by omega)]
      exact (le_lt _).trans_eq (by rw [hlen])
    · rw [toNat_ofNat_le (by omega), ← getElem_eq_le_div (by omega), Memory.getElem_readBytes]

/-- Settles O43: a string, and a unit of a size R58 knows, is refused as `State.hostRefusal` says. -/
theorem undefinedDataAccessIsRefused : Obligations.UndefinedDataAccessIsRefused := by
  intro s addr n v rest unit string
  refine ⟨fun hl hn => ?_, fun hl => ?_⟩
  · rcases hl with hl | hl
    · exact step_refused hl (hostUnit_badSize hn _)
    · exact step_refused hl (hostUnit_badSize hn _)
  · have haccess : ∃ a t, Lands s (.host a) rest ∧ s.hostAct a = s.hostAccess addr.toNat n t := by
      rcases hl with (⟨bs, rfl, hl⟩ | hl) | ⟨hl | hl, hn⟩
      · exact ⟨_, _, hl, rfl⟩
      · exact ⟨_, _, hl, rfl⟩
      · exact ⟨_, _, hl, hostUnit_eq hn _⟩
      · exact ⟨_, _, hl, hostUnit_eq hn _⟩
    obtain ⟨a, t, hla, ha⟩ := haccess
    have hrefused : ∀ {r}, s.hostRefusal addr.toNat n = some r → step s = .refused r := fun hr =>
      step_refused hla (by rw [ha, State.hostAccess, hr])
    refine ⟨fun h0 h => hrefused (hostRefusal_beyond h0 h), ?_⟩
    rintro hf i hb hd ⟨r, hr, hmeet⟩
    exact hrefused (hostRefusal_touches hf fun hc => hmeet (hc hb i hd r hr))

end Sys2Proof.Machine
end

section
/-! SUPPORT. The command word from both sides (spec/30_encoding.md R70 to R78): a word decodes to a command exactly when
it is that command's word; what such a word is as an integer; and the steps that issue, await and run a command. -/

namespace Sys2Proof.Machine

/-! ### Decoding a word -/

theorem decode_ok_iff_fields {w : DWord} {i : Instr} :
    decode w = .ok i ↔ commandOf (cmdFields w) = some i ∧ (cmdFields w).wellFormed = true := by
  unfold decode
  cases commandOf (cmdFields w) with
  | none => simp
  | some j => by_cases hw : (cmdFields w).wellFormed = true <;> simp [hw]

/-- Every command is well formed (R73): the bound of an index is in its type. -/
theorem wellFormed_instr (i : Instr) : i.wellFormed = true := by
  cases i <;> rfl

theorem commandOf_fields (i : Instr) : commandOf i.fields = some i := by
  cases i <;> rfl

theorem opc_of_commandOf {f : CmdFields} {i : Instr} (h : commandOf f = some i) : i.opc = f.opc := by
  apply BitVec.eq_of_toNat_eq
  unfold commandOf at h
  split at h <;> cases h <;> exact Eq.symm ‹f.opc.toNat = _›

/-- The index fields of the command are those of the word where R74 allows them. -/
theorem indices_of_commandOf {f : CmdFields} {i : Instr} (h : commandOf f = some i) (ha : f.indicesAllowed = true) :
    i.indices = (f.qa, f.qb, f.qc, f.qd) := by
  have hopc := opc_of_commandOf h
  rw [CmdFields.indicesAllowed, ← hopc] at ha
  cases i
  case ccQr a b c d =>
    have hf : f.opc.toNat = 1 := by rw [← hopc]; rfl
    simp only [commandOf, hf, Option.some.injEq, Instr.ccQr.injEq] at h
    obtain ⟨rfl, rfl, rfl, rfl⟩ := h
    rfl
  all_goals
    obtain ⟨hqa, hqb, hqc, hqd⟩ : f.qa = 0 ∧ f.qb = 0 ∧ f.qc = 0 ∧ f.qd = 0 := by
      simpa [Instr.opc, and_assoc] using ha
    rw [hqa, hqb, hqc, hqd]
    rfl

/-- The fields of a legal word are those of the command it names (R73, R77). -/
theorem fields_of_commandOf {f : CmdFields} {i : Instr} (h : commandOf f = some i) (hw : f.wellFormed = true) :
    i.fields = f := by
  simp only [CmdFields.wellFormed, Bool.and_eq_true] at hw
  obtain ⟨⟨-, hrsv⟩, hidx⟩ := hw
  rw [CmdFields.rsvZero, beq_iff_eq] at hrsv
  rw [Instr.fields, opc_of_commandOf h, indices_of_commandOf h hidx, ← hrsv]

/-- A word decodes to a command exactly when it is the command's word. -/
theorem decode_ok_iff {w : DWord} {i : Instr} : decode w = .ok i ↔ w = encode i := by
  rw [decode_ok_iff_fields]
  constructor
  · rintro ⟨hc, hw⟩
    rw [encode, fields_of_commandOf hc hw, word_cmdFields]
  · rintro rfl
    rw [encode, cmdFields_word]
    exact ⟨commandOf_fields i, wellFormed_instr i⟩

/-- Settles O2: both directions are `decode_ok_iff`. -/
theorem decodeAndEncodeAgree : Obligations.DecodeAndEncodeAgree :=
  ⟨fun i => ⟨wellFormed_instr i, decode_ok_iff.mpr rfl⟩, fun _ _ h => (decode_ok_iff.mp h).symm⟩

/-! ### A command's word as an integer -/

/-- The word with given fields, each at its bit position (R70). -/
theorem toNat_word (f : CmdFields) :
    f.word.toNat = f.opc.toNat + f.qa.toNat * 2 ^ 8 + f.qb.toNat * 2 ^ 12 + f.qc.toNat * 2 ^ 16 +
      f.qd.toNat * 2 ^ 20 + f.rsv.toNat * 2 ^ 24 := by
  unfold CmdFields.word
  simp only [toNat_append_add]
  omega

theorem toNat_encode_ccQr (a b c d : Fin 16) :
    (encode (.ccQr a b c d)).toNat = 1 + a.val * 2 ^ 8 + b.val * 2 ^ 12 + c.val * 2 ^ 16 + d.val * 2 ^ 20 := by
  rw [encode, toNat_word]
  simp [Instr.fields, Instr.indices, Instr.opc]

/-- The word of a command other than CC.QR is its OPC (R74, R77). -/
theorem toNat_encode_of_ne_ccQr {i : Instr} (h : ∀ a b c d, i ≠ .ccQr a b c d) : (encode i).toNat = i.opc.toNat := by
  cases i
  case ccQr a b c d => exact absurd rfl (h a b c d)
  all_goals rfl

/-- Bits 7:0 of a command's word are its OPC (R70). -/
theorem toNat_encode_mod (i : Instr) : (encode i).toNat % 256 = i.opc.toNat := by
  have hopc : i.fields.opc = i.opc := rfl
  have hlt := i.opc.isLt
  rw [encode, toNat_word, hopc]
  omega

/-- Settles O3: `decode_ok_iff` makes the word the command's, and `toNat_encode_ccQr` has its nibbles. -/
theorem ccQrIndicesAreTheFourNibbles : Obligations.CcQrIndicesAreTheFourNibbles := by
  refine ⟨fun w a b c d h => ?_, fun a b c d => ?_, fun w i h hi => ?_⟩
  · rw [decode_ok_iff.mp h, toNat_encode_ccQr]
    omega
  · rw [decode_ok_iff, ← toNat_encode_ccQr, BitVec.ofNat_toNat, BitVec.setWidth_eq]
  · rw [decode_ok_iff.mp h, toNat_encode_of_ne_ccQr hi]
    exact i.opc.isLt

/-! ### Match and mask -/

/-- A word has CC.QR's match under its mask exactly when it is the word of a CC.QR (R77): the mask leaves OPC and RSV. -/
theorem and_mask_ccQr_iff {w : DWord} :
    w &&& 0xFFFFFFFFFF0000FF = 0x01 ↔ ∃ a b c d, w = encode (.ccQr a b c d) := by
  constructor
  · intro h
    have hopc : w.extractLsb' 0 8 = (0x01 : DWord).extractLsb' 0 8 := by
      rw [← h, BitVec.extractLsb'_and]
      exact (BitVec.and_allOnes).symm
    have hrsv : w.extractLsb' 24 40 = (0x01 : DWord).extractLsb' 24 40 := by
      rw [← h, BitVec.extractLsb'_and]
      exact (BitVec.and_allOnes).symm
    have hfields : cmdFields w =
        (Instr.ccQr (cmdFields w).qa.toFin (cmdFields w).qb.toFin (cmdFields w).qc.toFin (cmdFields w).qd.toFin).fields := by
      rw [cmdFields, hopc, hrsv]
      rfl
    exact ⟨_, _, _, _, by rw [encode, ← hfields, word_cmdFields]⟩
  · rintro ⟨a, b, c, d, rfl⟩
    exact (Laws.LegalWord.ccQr a b c d).2

/-- The OPC of a command is one of the fifteen of R77. -/
theorem toNat_opc_mem (i : Instr) :
    i.opc.toNat ∈ [0x01, 0x02, 0x03, 0x04, 0x05, 0x06, 0x10, 0x20, 0x21, 0x22, 0x23, 0x24, 0x30, 0x31, 0x32] := by
  cases i <;> simp [Instr.opc]

/-- Settles O4: the fourteen fixed words by their integers, CC.QR's by `and_mask_ccQr_iff`. -/
theorem decodeSelectsByMatchAndMask : Obligations.DecodeSelectsByMatchAndMask := by
  refine fun w => ⟨fun p hp => ?_, ?_, fun i h => ?_⟩
  · have hmask : w.toNat &&& 0xFFFFFFFFFFFFFFFF = w.toNat := by
      rw [Nat.and_two_pow_sub_one_eq_mod w.toNat 64, Nat.mod_eq_of_lt w.isLt]
    have hword : (encode p.2).toNat = p.1 := by
      revert p
      decide
    rw [hmask, decode_ok_iff, ← hword, BitVec.toNat_inj]
  · simp only [decode_ok_iff]
    rw [← and_mask_ccQr_iff, ← BitVec.toNat_inj, BitVec.toNat_and]
    rfl
  · rw [decode_ok_iff.mp h, toNat_encode_mod]
    exact ⟨rfl, toNat_opc_mem i⟩

/-- Settles O1. -/
theorem decodeGivesTheWordsOfTheMap : Obligations.DecodeGivesTheWordsOfTheMap :=
  ⟨rfl, rfl, rfl, rfl, rfl, rfl, rfl, rfl, rfl, rfl, rfl⟩

/-! ### The step of a latched word -/

/-- The reserved bits of a command's word are 0: from bit 24 on for CC.QR, from bit 8 on for any other (R74). -/
theorem encode_reserved_zero (i : Instr) :
    (i.opc.toNat = 0x01 ∧ (encode i).toNat < 2 ^ 24) ∨ (i.opc.toNat ≠ 0x01 ∧ (encode i).toNat < 2 ^ 8) := by
  cases i
  case ccQr a b c d =>
    rw [toNat_encode_ccQr]
    exact .inl ⟨rfl, by omega⟩
  all_goals exact .inr (by decide)

/-- Settles O6: a word that decodes is a command's (`decode_ok_iff`), so its OPC is assigned and its reserved bits are 0. -/
theorem illegalWordRaisesBadCommand : Obligations.IllegalWordRaisesBadCommand := by
  intro s hm hbad
  rw [step_engine (engineTurn_iff.mpr hm)]
  rcases engineStep_cases s with ⟨i, hd, -⟩ | ⟨e, -, hs⟩
  · have hreserved := encode_reserved_zero i
    rw [decode_ok_iff.mp hd, toNat_encode_mod] at hbad
    rcases hbad with hopc | hbits
    · exact absurd (toNat_opc_mem i) hopc
    · omega
  · exact ⟨_, hs, raised_raise s .badCommand⟩

/-- The ENGINE's move on a legal word (R72, R73). -/
theorem step_of_decode {s : State} {i : Instr} (hm : EngineMoves s) (hd : decode s.latch = .ok i) : step s = exec i s := by
  rw [step_engine (engineTurn_iff.mpr hm), engineStep_ok hd]

/-- Settles O5: `withFetchWord` latches the command's own word and makes the ENGINE move. -/
theorem stepRunsTheDecodedCommand : Obligations.StepRunsTheDecodedCommand := by
  refine ⟨fun s i => step_of_decode, fun s i => step_of_decode ⟨rfl, .inl rfl⟩ (decode_ok_iff.mpr ?_)⟩
  have hw : (encode i).toNat % 2 ^ 64 = (encode i).toNat := Nat.mod_eq_of_lt (encode i).isLt
  rw [State.withFetchWord, State.latched, hw, BitVec.ofNat_toNat, BitVec.setWidth_eq]

/-! ### The HOST's issue and wait -/

/-- Settles O35: a write of slot CMD, accepted or dropped. -/
theorem commandIssue : Obligations.CommandIssue := by
  intro s v rest hl
  obtain ⟨t, hstep, hacted, ht⟩ := step_write (r := .cmd) hl rfl
  refine ⟨t, hstep, hacted, fun hb => ?_, fun hb => ?_⟩
  · rwa [writeSlot_cmd hb] at ht
  · rwa [writeSlot_busy hb rfl] at ht

/-- While BUSY = 1 an event from outside only brings the ENGINE's turn one nearer (log 1). -/
theorem settle_busy {s : State} (hb : s.busy = true) (t : State) :
    s.settle t = { t with env := { t.env with lag := s.env.lag - 1 } } := by
  simp [State.settle, hb]

/-- A poll of `wait` reads STATUS, and is the last when BUSY = 0 (R81). -/
theorem hostAct_wait (s : State) :
    s.hostAct .wait = .next (if s.busy then s.note (.reg 8 s.statusWord) else (s.note (.reg 8 s.statusWord)).advance) := by
  simp only [State.hostAct, statusWord_busy]
  split <;> rfl

/-- Settles O44: one case per value of BUSY that the poll reads. -/
theorem waitPollsStatus : Obligations.WaitPollsStatus := by
  intro s rest hl
  have ha := hostAct_wait s
  by_cases hb : s.busy = true
  · rw [if_pos hb] at ha
    have hlag : s.env.lag ≠ 0 := hl.2.resolve_left (by simp [hb])
    refine ⟨_, by rw [step_lands hl, State.land, ha], ?_⟩
    rw [settle_busy hb]
    exact ⟨rfl, rfl, fun _ => ⟨rfl, rfl, Nat.sub_add_cancel (Nat.pos_of_ne_zero hlag)⟩, fun h => by simp [hb] at h⟩
  · rw [if_neg hb] at ha
    obtain ⟨t, hstep, ⟨hagenda, hpos, hseen⟩, ht⟩ := step_done (new := [.reg 8 s.statusWord]) hl ha rfl
    exact ⟨t, hstep, ht, hseen, fun h => absurd h hb, fun _ => ⟨hagenda, hpos⟩⟩

end Sys2Proof.Machine
end

section
/-! SUPPORT. The ChaCha20 block function (spec/40_chacha_block.md R90 to R99): the quarter-round as assignments, rounds in
any order of their lanes, the permutation's injectivity and fixed point, the words of the initial state. -/

namespace Sys2Proof.Machine

/-! ### The rotation and the eight assignments of a quarter-round -/

/-- The rotation in integers (R5): the bits that wrap are below the bits that move up. -/
theorem rotl_eq_ofNat (v : Word) (n : Nat) (hn : n ≤ 32) :
    rotl v n = BitVec.ofNat 32 (v.toNat * 2 ^ n + v.toNat / 2 ^ (32 - n)) := by
  have hwrap : v.toNat / 2 ^ (32 - n) < 2 ^ n := by
    rw [Nat.div_lt_iff_lt_mul (by positivity), ← Nat.pow_add, Nat.add_sub_cancel' hn]
    exact v.isLt
  rw [← Nat.shiftLeft_eq, Nat.shiftLeft_add_eq_or_of_lt hwrap, BitVec.ofNat_or, rotl]
  have hhigh : v <<< n = BitVec.ofNat 32 (v.toNat <<< n) := BitVec.eq_of_toNat_eq (by simp)
  have hlow : v >>> (32 - n) = BitVec.ofNat 32 (v.toNat / 2 ^ (32 - n)) := by
    rw [← Nat.shiftRight_eq_div_pow, ← BitVec.toNat_ushiftRight, BitVec.ofNat_toNat, BitVec.setWidth_eq]
  rw [hhigh, hlow]

/-- Bit `i` of a rotation (R5). -/
theorem getLsbD_rotl (v : Word) {n i : Nat} (hn : n ≤ 32) (hi : i < 32) :
    (rotl v n).getLsbD i = if i < n then v.getLsbD (32 - n + i) else v.getLsbD (i - n) := by
  rw [rotl, BitVec.getLsbD_or, BitVec.getLsbD_shiftLeft, BitVec.getLsbD_ushiftRight]
  split
  · simp [*]
  · have hout : v.getLsbD (32 - n + i) = false := BitVec.getLsbD_of_ge _ _ (by omega)
    simp [*]

theorem rotl_injective {n : Nat} (hn : n ≤ 32) : Function.Injective fun v => rotl v n := by
  intro v w h
  have hbit : ∀ i, (rotl v n).getLsbD i = (rotl w n).getLsbD i := fun i => congrArg (·.getLsbD i) h
  apply BitVec.eq_of_getLsbD_eq
  intro j hj
  by_cases hlow : j < 32 - n
  · have e := hbit (j + n)
    rwa [getLsbD_rotl _ hn (by omega), getLsbD_rotl _ hn (by omega), if_neg (by omega), if_neg (by omega),
      Nat.add_sub_cancel] at e
  · have e := hbit (j - (32 - n))
    rwa [getLsbD_rotl _ hn (by omega), getLsbD_rotl _ hn (by omega), if_pos (by omega), if_pos (by omega),
      Nat.add_sub_cancel' (by omega)] at e

/-- The first assignment of a line of R92, on the words as a function of their index. -/
def addAssign (a b : Fin 16) (f : Fin 16 → Word) : Fin 16 → Word := Function.update f a (f a + f b)

/-- The second assignment of a line of R92, on the words as a function of their index. -/
def mixAssign (d a : Fin 16) (n : Nat) (f : Fin 16 → Word) : Fin 16 → Word :=
  Function.update f d (rotl (f d ^^^ f a) n)

/-- The words of a line of R92 are those of its two assignments in order. -/
theorem words_quarterLine (x : Block) (a b d : Fin 16) (n : Nat) :
    (fun j : Fin 16 => (quarterLine x a b d n)[j]) = mixAssign d a n (addAssign a b fun j => x[j]) :=
  funext fun j => getElem_quarterLine x a b d j n

/-- The words of a quarter-round are those of its eight assignments in order (R92). -/
theorem words_quarterRound (x : Block) (a b c d : Fin 16) :
    (fun j : Fin 16 => (quarterRound x a b c d)[j]) =
      mixAssign b c 7 (addAssign c d (mixAssign d a 8 (addAssign a b
        (mixAssign b c 12 (addAssign c d (mixAssign d a 16 (addAssign a b fun j => x[j]))))))) := by
  rw [quarterRound]
  simp only [words_quarterLine]

theorem mixAssign_eq (d a : Fin 16) {n : Nat} (hn : n ≤ 32) (f : Fin 16 → Word) :
    mixAssign d a n f = Function.update f d
      (BitVec.ofNat 32 ((f d ^^^ f a).toNat * 2 ^ n + (f d ^^^ f a).toNat / 2 ^ (32 - n))) := by
  rw [mixAssign, rotl_eq_ofNat _ _ hn]

/-- Four distinct indices, pair by pair. -/
theorem ne_of_nodup_four {a b c d : Fin 16} (h : [a, b, c, d].Nodup) :
    a ≠ b ∧ a ≠ c ∧ a ≠ d ∧ b ≠ c ∧ b ≠ d ∧ c ≠ d := by
  simp only [List.nodup_cons, List.mem_cons, List.not_mem_nil, or_false, not_or] at h
  obtain ⟨⟨hab, hac, had⟩, ⟨hbc, hbd⟩, hcd, -⟩ := h
  exact ⟨hab, hac, had, hbc, hbd, hcd⟩

/-- Settles O13: `words_quarterRound` for all indices; on distinct ones each word is read off line by line. -/
theorem quarterRoundEquations : Obligations.QuarterRoundEquations := by
  refine ⟨fun x a b c d j => ?_, fun x a b c d j => quarterRound_other x, fun x a b c d hnodup => ?_⟩
  · have hj := congrFun (words_quarterRound x a b c d) j
    simp (disch := decide) only [mixAssign_eq] at hj
    exact hj
  · obtain ⟨hab, hac, had, hbc, hbd, hcd⟩ := ne_of_nodup_four hnodup
    simp (disch := decide) only [quarterRound, quarterLine_sum _ _ had, quarterLine_rot _ _ had,
      quarterLine_sum _ _ hbc.symm, quarterLine_rot _ _ hbc.symm, quarterLine_other _ _ hab.symm hbd,
      quarterLine_other _ _ hac.symm hcd, quarterLine_other _ _ hac hab, quarterLine_other _ _ hcd.symm hbd.symm,
      rotl_eq_ofNat, and_self]

/-! ### Lanes -/

theorem block_ext {x y : Block} (h : ∀ j : Fin 16, x[j] = y[j]) : x = y :=
  Vector.ext fun k hk => h ⟨k, hk⟩

/-- A line of R92 on named words reads named words only. -/
theorem quarterLine_congr {x y : Block} {l : List (Fin 16)} {a b d : Fin 16} (n : Nat) (ha : a ∈ l) (hb : b ∈ l)
    (hd : d ∈ l) (h : ∀ j ∈ l, x[j] = y[j]) : ∀ j ∈ l, (quarterLine x a b d n)[j] = (quarterLine y a b d n)[j] := by
  intro j hj
  simp only [getElem_quarterLine, Function.update_apply, h a ha, h b hb, h d hd, h j hj]

/-- What a quarter-round writes depends on its four words only (R92). -/
theorem quarterRound_congr {x y : Block} {a b c d : Fin 16} (h : ∀ j ∈ [a, b, c, d], x[j] = y[j]) :
    ∀ j ∈ [a, b, c, d], (quarterRound x a b c d)[j] = (quarterRound y a b c d)[j] := by
  have ha : a ∈ [a, b, c, d] := by simp
  have hb : b ∈ [a, b, c, d] := by simp
  have hc : c ∈ [a, b, c, d] := by simp
  have hd : d ∈ [a, b, c, d] := by simp
  exact quarterLine_congr 7 hc hd hb <| quarterLine_congr 8 ha hb hd <| quarterLine_congr 12 hc hd hb <|
    quarterLine_congr 16 ha hb hd h

/-- The four word indices of a quarter-round. -/
abbrev Lane := Fin 16 × Fin 16 × Fin 16 × Fin 16

/-- The quarter-round of a lane. -/
def laneRound (x : Block) (q : Lane) : Block := quarterRound x q.1 q.2.1 q.2.2.1 q.2.2.2

/-- The indices of a lane as a list. -/
def Lane.indices (q : Lane) : List (Fin 16) := [q.1, q.2.1, q.2.2.1, q.2.2.2]

/-- A quarter-round leaves the words of other lanes alone (R92). -/
theorem laneRound_other (x : Block) {q : Lane} {j : Fin 16} (hj : j ∉ q.indices) : (laneRound x q)[j] = x[j] := by
  simp only [Lane.indices, List.mem_cons, List.not_mem_nil, or_false, not_or] at hj
  obtain ⟨ha, hb, hc, hd⟩ := hj
  exact quarterRound_other x ha hb hc hd

/-- Outside one of two disjoint lanes their quarter-rounds give the same words in either order. -/
theorem laneRound_comm_outside {p q : Lane} (h : ∀ j ∈ p.indices, j ∉ q.indices) (x : Block) {j : Fin 16}
    (hq : j ∉ q.indices) : (laneRound (laneRound x p) q)[j] = (laneRound (laneRound x q) p)[j] := by
  rw [laneRound_other _ hq]
  by_cases hp : j ∈ p.indices
  · exact quarterRound_congr (fun k hk => (laneRound_other x (h k hk)).symm) j hp
  · rw [laneRound_other _ hp, laneRound_other _ hp, laneRound_other _ hq]

/-- R95: quarter-rounds on disjoint lanes commute. -/
theorem laneRound_comm {p q : Lane} (h : ∀ j ∈ p.indices, j ∉ q.indices) (x : Block) :
    laneRound (laneRound x p) q = laneRound (laneRound x q) p := by
  refine block_ext fun j => ?_
  by_cases hq : j ∈ q.indices
  · exact (laneRound_comm_outside (fun k hk hp => h k hp hk) x fun hp => h j hp hq).symm
  · exact laneRound_comm_outside h x hq

/-- Pairwise disjoint lanes give the same result in every order (R95). -/
theorem foldl_laneRound_perm {l m : List Lane} (hperm : l.Perm m)
    (hm : ∀ p ∈ m, ∀ q ∈ m, p = q ∨ ∀ j ∈ p.indices, j ∉ q.indices) (x : Block) :
    l.foldl laneRound x = m.foldl laneRound x := by
  refine (hperm.symm.foldl_eq' (fun p hp q hq y => ?_) x).symm
  rcases hm p hp q hq with rfl | h
  · rfl
  · exact laneRound_comm h y

/-- Settles O14: the four lanes of a round are pairwise disjoint. -/
theorem roundsDoNotDependOnLaneOrder : Obligations.RoundsDoNotDependOnLaneOrder :=
  fun x _ => ⟨fun h => foldl_laneRound_perm h (by decide) x, fun h => foldl_laneRound_perm h (by decide) x⟩

/-! ### The permutation -/

theorem quarterLine_injective {a b d : Fin 16} {n : Nat} (hn : n ≤ 32) (hab : a ≠ b) (had : a ≠ d) (hbd : b ≠ d) :
    Function.Injective fun x => quarterLine x a b d n := by
  intro x y h
  have hword : ∀ j : Fin 16, (quarterLine x a b d n)[j] = (quarterLine y a b d n)[j] := fun j => congrArg (·[j]) h
  have hother : ∀ j : Fin 16, j ≠ a → j ≠ d → x[j] = y[j] := fun j ha hd => by
    simpa only [quarterLine_other _ n ha hd] using hword j
  have ha : x[a] = y[a] := by
    have e := hword a
    rwa [quarterLine_sum x n had, quarterLine_sum y n had, hother b hab.symm hbd, BitVec.add_left_inj] at e
  have hd : x[d] = y[d] := by
    have e := hword d
    rw [quarterLine_rot x n had, quarterLine_rot y n had, ha, hother b hab.symm hbd] at e
    exact (BitVec.xor_left_inj _).mp (rotl_injective hn e)
  refine block_ext fun j => ?_
  by_cases hja : j = a
  · rwa [hja]
  by_cases hjd : j = d
  · rwa [hjd]
  exact hother j hja hjd

theorem quarterRound_injective {a b c d : Fin 16} (h : [a, b, c, d].Nodup) :
    Function.Injective fun x => quarterRound x a b c d := by
  obtain ⟨hab, hac, had, hbc, hbd, hcd⟩ := ne_of_nodup_four h
  have hline : ∀ n ≤ 32, Function.Injective fun x => quarterLine x a b d n := fun n hn =>
    quarterLine_injective hn hab had hbd
  have hline' : ∀ n ≤ 32, Function.Injective fun x => quarterLine x c d b n := fun n hn =>
    quarterLine_injective hn hcd hbc.symm hbd.symm
  exact (hline' 7 (by decide)).comp <| (hline 8 (by decide)).comp <| (hline' 12 (by decide)).comp <|
    hline 16 (by decide)

theorem columnRound_injective : Function.Injective columnRound :=
  (quarterRound_injective (a := 3) (b := 7) (c := 11) (d := 15) (by decide)).comp <|
    (quarterRound_injective (a := 2) (b := 6) (c := 10) (d := 14) (by decide)).comp <|
    (quarterRound_injective (a := 1) (b := 5) (c := 9) (d := 13) (by decide)).comp <|
    quarterRound_injective (a := 0) (b := 4) (c := 8) (d := 12) (by decide)

theorem diagonalRound_injective : Function.Injective diagonalRound :=
  (quarterRound_injective (a := 3) (b := 4) (c := 9) (d := 14) (by decide)).comp <|
    (quarterRound_injective (a := 2) (b := 7) (c := 8) (d := 13) (by decide)).comp <|
    (quarterRound_injective (a := 1) (b := 6) (c := 11) (d := 12) (by decide)).comp <|
    quarterRound_injective (a := 0) (b := 5) (c := 10) (d := 15) (by decide)

theorem doubleRounds_eq_iterate (n : Nat) : doubleRounds n = doubleRound^[n] := by
  induction n with
  | zero => rfl
  | succ n ih =>
    rw [Function.iterate_succ, ← ih]
    rfl

/-- There are finitely many states. -/
theorem finite_block : Finite Block :=
  Finite.of_injective (fun (x : Block) (j : Fin 16) => x[j]) fun x y h =>
    block_ext (congrFun h)

theorem addAssign_zero (a b : Fin 16) : addAssign a b 0 = 0 := by simp [addAssign]

theorem mixAssign_zero (d a : Fin 16) (n : Nat) : mixAssign d a n 0 = 0 := by simp [mixAssign, rotl]

/-- A quarter-round keeps the all-zero state, on any indices. -/
theorem quarterRound_zero (a b c d : Fin 16) :
    quarterRound (Vector.replicate 16 0) a b c d = Vector.replicate 16 0 := by
  have hwords : (fun j : Fin 16 => (Vector.replicate 16 (0 : Word))[j]) = 0 := funext fun j => by simp
  refine block_ext fun j => (congrFun (words_quarterRound _ a b c d) j).trans ?_
  simp only [hwords, addAssign_zero, mixAssign_zero]
  simp

theorem doubleRound_zero : doubleRound (Vector.replicate 16 0) = Vector.replicate 16 0 := by
  simp only [doubleRound, diagonalRound, columnRound, quarterRound_zero]

/-- Settles O15: an injection of a finite type is a bijection, and a fixed point of a double round one of ten. -/
theorem permutationIsABijection : Obligations.PermutationIsABijection := by
  have hperm : perm20 = doubleRound^[10] := doubleRounds_eq_iterate 10
  have hinj : Function.Injective doubleRound := diagonalRound_injective.comp columnRound_injective
  have := finite_block
  rw [Obligations.PermutationIsABijection, hperm]
  exact ⟨fun _ => rfl, rfl, Finite.injective_iff_bijective.mp (hinj.iterate 10),
    Function.iterate_fixed doubleRound_zero 10⟩

/-! ### The block function and the initial state -/

/-- Settles O16: `getElem_blockFn`, with `256 ^ i` as a power of 2. -/
theorem blockFunctionBytes : Obligations.BlockFunctionBytes := by
  refine fun s => ⟨length_blockFn s, fun k i hk hi => ?_⟩
  rw [List.getElem?_eq_getElem (by simp; omega), getElem_blockFn s k i hk hi, BitVec.toNat_add, Nat.pow_mul]

/-- The integer of the first bytes of a string, a byte beyond its end counting as 0 (R6). -/
theorem le_take_succ (bs : List Byte) (n : Nat) :
    le (bs.take (n + 1)) = (bs.getD 0 0).toNat + 256 * le ((bs.drop 1).take n) := by
  cases bs <;> simp [le]

/-- A little-endian word, byte by byte (R6). -/
theorem toNat_le32 (bs : List Byte) (k : Nat) :
    (le32 bs k).toNat = (bs.getD (4 * k) 0).toNat + 2 ^ 8 * (bs.getD (4 * k + 1) 0).toNat +
      2 ^ 16 * (bs.getD (4 * k + 2) 0).toNat + 2 ^ 24 * (bs.getD (4 * k + 3) 0).toNat := by
  have hlt : le (slice bs (4 * k) 4) < 2 ^ 32 :=
    (le_lt _).trans_le (Nat.pow_le_pow_right (n := 256) (by decide) (by simp [slice]) : _ ≤ 256 ^ 4)
  rw [le32, BitVec.toNat_ofNat, Nat.mod_eq_of_lt hlt, slice]
  simp only [le_take_succ, List.drop_drop, List.take_zero, le, List.getD_eq_getElem?_getD, List.getElem?_drop,
    Nat.add_zero, Nat.add_assoc, Nat.reduceAdd]
  omega

/-- Settles O17: the words of `initBlock` are those of R91, each read by `toNat_le32`. -/
theorem initialStateWords : Obligations.InitialStateWords := by
  intro k n ctr _ _ s word expand
  refine ⟨rfl, rfl, rfl, rfl, ?_, ?_, rfl, ?_⟩
  · intro i hi
    have hword : s[i] = le32 expand i := by interval_cases i <;> rfl
    rw [hword, toNat_le32]
  · intro i hi
    have hword : s[4 + i] = le32 k i := by interval_cases i <;> rfl
    rw [hword, toNat_le32]
  · intro i hi
    have hword : s[13 + i] = le32 n i := by interval_cases i <;> rfl
    rw [hword, toNat_le32]

end Sys2Proof.Machine
end

section
/-! SUPPORT. The six commands of the block function (spec/40_chacha_block.md R100 to R105): which state meets their checks,
the words of memory they read and write, and their completion. -/

namespace Sys2Proof.Machine

/-! ### The checks of a command that passes them -/

/-- Ranges that fit in exact arithmetic pass the last check of every command (R54). -/
theorem checkRanges_of_fits {s : State} {i : Instr} (hin : ∀ r ∈ s.inputs i, Fits s r.ptr r.len)
    (hout : Fits s s.opr.dstPtr (s.outCount i)) : s.checkRanges i = none :=
  checkRanges_none.mpr ⟨fun r hr => valid_iff.mpr (hin r hr), valid_iff.mpr hout⟩

theorem checkKey_none {s : State} (h : s.opr.keyLen = 32) : s.checkKey = none := if_pos h

theorem checkNonce_none {s : State} (h : s.opr.nonceLen = 12) : s.checkNonce = none := if_pos h

/-! ### Words of memory -/

/-- A word of memory inside a range is the little-endian word of the range's bytes (R6, R51). -/
theorem le32_bytesAt (s : State) (p : DWord) {n k : Nat} (h : 4 * k + 4 ≤ n) :
    le32 (bytesAt s p n) k = wordAt s (p.toNat + 4 * k) := by
  have hbytes : slice (bytesAt s p n) (4 * k) 4 = s.mem.readBytes (p.toNat + 4 * k) 4 :=
    List.ext_getElem (by simp [slice, bytesAt]; omega) fun j _ _ => by simp [slice, bytesAt, Nat.add_assoc]
  rw [le32, hbytes, wordAt]

/-- The state operand read as 16 words (R100). -/
theorem loadBlock_bytesAt {s : State} {p : DWord} {x : Block}
    (h : ∀ k, (hk : k < 16) → x[k] = wordAt s (p.toNat + 4 * k)) : loadBlock (bytesAt s p 64) = x :=
  Vector.ext fun k hk => by rw [getElem_loadBlock _ _ hk, le32_bytesAt s p (by omega), h k hk]

/-- The bytes written at DST_PTR are what is read there (R52, R53). -/
theorem bytesAt_of_wrote {s t : State} {bs : List Byte} (h : Wrote s t bs) : bytesAt t s.opr.dstPtr bs.length = bs :=
  List.ext_getElem (by simp [bytesAt]) fun j _ hj => by simpa [bytesAt] using h.1 j hj

/-- A serialized state written at DST_PTR puts its words there (R7, R100). -/
theorem wordAt_of_wrote_ser {s t : State} {w : Block} (h : Wrote s t (ser w)) (k : Nat) (hk : k < 16) :
    wordAt t (s.opr.dstPtr.toNat + 4 * k) = w[k] := by
  have hbytes : bytesAt t s.opr.dstPtr 64 = ser w := by simpa using bytesAt_of_wrote h
  rw [← le32_bytesAt t s.opr.dstPtr (n := 64) (by omega), hbytes, le32_ser w k hk]

/-! ### The commands on a state operand -/

/-- What CC.QR, CC.DROUND, CC.PERM and CC.BLOCKS have in common: on every machine `i` reads the 64 bytes at SRC_PTR, checks
its ranges only, and writes the serialization of `f` of the 16 words (R76, R100 to R103). -/
structure StateCommand (i : Instr) (f : Block → Block) : Prop where
  checks (s : State) : s.checks i = [s.checkRanges i]
  inputs (s : State) : s.inputs i = [s.stateRange]
  outCount (s : State) : s.outCount i = 64
  outBytes (s : State) : outBytes s i = ser (f (loadBlock (bytesAt s s.opr.srcPtr 64)))
  resultOf (s : State) : resultOf s i = false
  ctxAfter (s : State) : ctxAfter s i = s.ctx
  authOk (s : State) : authOk s i = true

theorem stateCommand_ccQr (a b c d : Fin 16) : StateCommand (.ccQr a b c d) fun x => quarterRound x a b c d := by
  constructor <;> exact fun _ => rfl

theorem stateCommand_ccDround : StateCommand .ccDround doubleRound := by constructor <;> exact fun _ => rfl

theorem stateCommand_ccPerm : StateCommand .ccPerm perm20 := by constructor <;> exact fun _ => rfl

theorem stateCommand_ccBlocks : StateCommand .ccBlocks fun x => Vector.zipWith (· + ·) (perm20 x) x := by
  constructor <;> exact fun _ => rfl

/-- A command on a state operand completes on valid ranges, in place or apart (R54, R57). -/
theorem StateCommand.completes {i : Instr} {f : Block → Block} (hi : StateCommand i f) {s : State}
    (hsrc : Fits s s.opr.srcPtr 64) (hdst : Fits s s.opr.dstPtr 64) (hplace : OutInPlaceOrApart s 64 64) :
    ∃ t, exec i s = .next t ∧ Ended s t none false 64 ∧ t.ctx = s.ctx ∧
      Wrote s t (ser (f (loadBlock (bytesAt s s.opr.srcPtr 64)))) := by
  have hrange : ∀ r ∈ s.inputs i, r = s.stateRange := fun r hr => by simpa [hi.inputs] using hr
  have hranges : s.checkRanges i = none :=
    checkRanges_of_fits (fun r hr => hrange r hr ▸ hsrc) ((hi.outCount s).symm ▸ hdst)
  have hnone : s.inputError i = none := by rw [State.inputError, hi.checks, hranges]; rfl
  have hover : ∀ r ∈ s.inputs i,
      Apart s.opr.dstPtr (s.outCount i) r.ptr r.len ∨ (r.who = .src ∧ s.opr.dstPtr = r.ptr) := by
    intro r hr
    rw [hrange r hr, hi.outCount]
    exact hplace.symm.imp_right fun h => ⟨rfl, h⟩
  have hdone := exec_completes hnone hover (hi.authOk s)
  rwa [hi.resultOf, hi.outCount, hi.ctxAfter, hi.outBytes] at hdone

/-- Settles O18: each of the four is a `StateCommand`, and the words of its output are read back by `wordAt_of_wrote_ser`. -/
theorem stateCommandsComplete : Obligations.StateCommandsComplete := by
  intro s i f x hsrc hdst hplace hcommand hx
  have hi : StateCommand i f := by
    rcases hcommand with ⟨a, b, c, d, rfl, rfl⟩ | ⟨rfl, rfl⟩ | ⟨rfl, rfl⟩ | ⟨rfl, rfl⟩
    · exact stateCommand_ccQr a b c d
    · exact stateCommand_ccDround
    · exact stateCommand_ccPerm
    · exact stateCommand_ccBlocks
  obtain ⟨t, hexec, hended, hctx, hwrote⟩ := hi.completes hsrc hdst hplace
  rw [loadBlock_bytesAt hx] at hwrote
  exact ⟨t, hexec, hended, hctx, wordAt_of_wrote_ser hwrote, by simpa using hwrote.2⟩

/-! ### The commands on a key and a nonce -/

/-- A command that reads a key and a nonce only completes when both are legal and its output is valid and apart from
them (R57, R104, R105). -/
theorem keyed_completes {s : State} {i : Instr} (hchecks : s.checks i = [s.checkKey, s.checkNonce, s.checkRanges i])
    (hinputs : s.inputs i = [s.keyRange, s.nonceRange]) (ha : authOk s i = true) (hkey : KeyOk s) (hnonce : NonceOk s)
    (hdst : Fits s s.opr.dstPtr (s.outCount i)) (hapart : OutApartFromKeys s (s.outCount i)) :
    ∃ t, exec i s = .next t ∧ Ended s t none (resultOf s i) (s.outCount i) ∧ t.ctx = ctxAfter s i ∧
      Wrote s t (outBytes s i) := by
  obtain ⟨hkeyLen, hkeyFits⟩ := hkey
  obtain ⟨hnonceLen, hnonceFits⟩ := hnonce
  obtain ⟨hkeyApart, hnonceApart⟩ := hapart
  have hall : ∀ P : Range → Prop, P s.keyRange → P s.nonceRange → ∀ r ∈ s.inputs i, P r := by
    intro P hk hn
    rw [hinputs]
    exact List.forall_mem_cons.mpr ⟨hk, List.forall_mem_singleton.mpr hn⟩
  have hranges : s.checkRanges i = none := checkRanges_of_fits (hall _ hkeyFits hnonceFits) hdst
  have hnone : s.inputError i = none := by
    rw [State.inputError, hchecks, checkKey_none hkeyLen, checkNonce_none hnonceLen, hranges]
    rfl
  exact exec_completes hnone (hall _ (.inl hkeyApart) (.inl hnonceApart)) ha

/-- Settles O19: CC.BLOCK and CC.OTK are the two commands that read a key and a nonce only. -/
theorem keyedBlockCommandsComplete : Obligations.KeyedBlockCommandsComplete := fun s hkey hnonce =>
  ⟨keyed_completes (s := s) (i := .ccBlock) rfl rfl rfl hkey hnonce,
    keyed_completes (s := s) (i := .ccOtk) rfl rfl rfl hkey hnonce⟩

end Sys2Proof.Machine
end

section
/-! SUPPORT. CC.XOR (spec/41_chacha_stream.md R120 to R123): the operands that meet its checks, its completion, and its
undoing by a second run in place. -/

namespace Sys2Proof.Machine

/-! ### What is at DST_PTR and what is not -/

/-- A range apart from the output reads as before (R57). -/
theorem bytesAt_of_wrote_apart {s t : State} {bs : List Byte} (h : Wrote s t bs) {p : DWord} {n : Nat}
    (hapart : Apart s.opr.dstPtr bs.length p n) : bytesAt t p n = bytesAt s p n :=
  Memory.readBytes_congr fun a hlo hhi => h.2 a fun ha => hapart a ⟨ha.1, ha.2, hlo, hhi⟩

/-- Of two outputs of one length to one place the second is left. -/
theorem Wrote.trans {s t u : State} {bs cs : List Byte} (hst : Wrote s t bs) (htu : Wrote t u cs)
    (hdst : t.opr.dstPtr = s.opr.dstPtr) (hlen : bs.length = cs.length) : Wrote s u cs := by
  rw [Wrote, hdst] at htu
  obtain ⟨hinside, houtside⟩ := htu
  exact ⟨hinside, fun a ha => (houtside a ha).trans (hst.2 a (hlen ▸ ha))⟩

/-- Output equal to the bytes that stood there changes no byte. -/
theorem sameMem_of_wrote_bytesAt {s t : State} {n : Nat} (h : Wrote s t (bytesAt s s.opr.dstPtr n)) : SameMem s t := by
  intro a
  by_cases ha : s.opr.dstPtr.toNat ≤ a ∧ a < s.opr.dstPtr.toNat + (bytesAt s s.opr.dstPtr n).length
  · obtain ⟨j, rfl⟩ := Nat.exists_eq_add_of_le ha.1
    rw [h.1 j (by omega)]
    exact Memory.getElem_readBytes ..
  · exact h.2 a ha

/-- Every command keeps the canonical form of memory (log 4). -/
theorem wf_of_exec_next {i : Instr} {s t : State} (h : exec i s = .next t) (hwf : s.mem.wf) : t.mem.wf := by
  rcases exec_next h with ⟨e, rfl, -⟩ | ⟨-, -, -, rfl⟩
  · exact hwf
  · exact Memory.writeBytes_wf hwf _ _

/-! ### The completion of CC.XOR -/

/-- The operands on which CC.XOR succeeds: the checks of R121 and R195 pass, and the output overlaps no input but SRC
in place (R57). -/
structure CcXorLegal (s : State) : Prop where
  key : KeyOk s
  nonce : NonceOk s
  length : s.opr.srcLen.toNat ≤ maxMessage
  counter : ceil64 s.opr.srcLen.toNat ≤ 2 ^ 32 - s.ctr.toNat
  src : Fits s s.opr.srcPtr s.opr.srcLen.toNat
  dst : Fits s s.opr.dstPtr s.opr.srcLen.toNat
  apart : OutApartFromKeys s s.opr.srcLen.toNat
  place : OutInPlaceOrApart s s.opr.srcLen.toNat s.opr.srcLen.toNat

/-- A property of the key, the nonce and the source range is one of every input of CC.XOR (R76). -/
theorem forall_inputs_ccXor {s : State} {P : Range → Prop} (hkey : P s.keyRange) (hnonce : P s.nonceRange)
    (hsrc : P s.srcRange) : ∀ r ∈ s.inputs .ccXor, P r :=
  List.forall_mem_cons.mpr ⟨hkey, List.forall_mem_cons.mpr ⟨hnonce, List.forall_mem_singleton.mpr hsrc⟩⟩

theorem checkCounter_none {ctr : Word} {n : Nat} : checkCounter ctr n = none ↔ ceil64 n ≤ 2 ^ 32 - ctr.toNat := by
  simp [checkCounter]

/-- No counter of a message that R121 admits wraps. -/
theorem counter_lt {ctr : Word} {n j : Nat} (h : ceil64 n ≤ 2 ^ 32 - ctr.toNat) (hj : j < n) :
    ctr.toNat + j / 64 < 2 ^ 32 := by
  rw [ceil64] at h
  omega

/-- The bytes that CC.XOR writes (R120, R122). -/
def xorOutput (s : State) : List Byte :=
  xcrypt (bytesAt s s.opr.keyPtr 32) (bytesAt s s.opr.noncePtr 12) s.ctr (bytesAt s s.opr.srcPtr s.opr.srcLen.toNat)

@[simp] theorem length_xorOutput (s : State) : (xorOutput s).length = s.opr.srcLen.toNat := by
  simp [xorOutput, bytesAt]

theorem getElem_xorOutput (s : State) (j : Nat) (h : j < (xorOutput s).length) :
    (xorOutput s)[j] = s.mem.read (s.opr.srcPtr.toNat + j) ^^^
      (keyedBlock (bytesAt s s.opr.keyPtr 32) (bytesAt s s.opr.noncePtr 12)
        (BitVec.ofNat 32 (s.ctr.toNat + j / 64))).getD (j % 64) 0 := by
  have hj : j % 64 < 64 := Nat.mod_lt j (by decide)
  simp [xorOutput, getElem_xcrypt, bytesAt, hj]

namespace CcXorLegal

variable {s t : State}

theorem inputError_none (h : CcXorLegal s) : s.inputError .ccXor = none := by
  have hranges : s.checkRanges .ccXor = none :=
    checkRanges_of_fits (forall_inputs_ccXor h.key.2 h.nonce.2 h.src) h.dst
  simp only [State.inputError, State.checks, checkKey_none h.key.1, checkNonce_none h.nonce.1,
    checkLength_none.mpr h.length, checkCounter_none.mpr h.counter, hranges, firstError]

theorem completes (h : CcXorLegal s) :
    ∃ t, exec .ccXor s = .next t ∧ Ended s t none false s.opr.srcLen.toNat ∧ t.ctx = s.ctx ∧
      Wrote s t (xorOutput s) :=
  exec_completes h.inputError_none
    (forall_inputs_ccXor (.inl h.apart.1) (.inl h.apart.2) (h.place.symm.imp_right fun hp => ⟨rfl, hp⟩)) rfl

/-- Legality is a matter of the registers and MEM_BYTES only, so a command keeps it. -/
theorem of_sameRegs (h : CcXorLegal s) (hregs : SameRegs s t) : CcXorLegal t := by
  obtain ⟨hopr, hctr, -, -, -, hcfg, -, -⟩ := hregs
  obtain ⟨hkey, hnonce, hlength, hcounter, hsrc, hdst, hapart, hplace⟩ := h
  constructor <;>
    simpa only [KeyOk, NonceOk, Fits, OutApartFromKeys, OutInPlaceOrApart, State.memBytes, hopr, hctr, hcfg]

/-- After CC.XOR in place a second run's output is the data of the first (R123). -/
theorem xorOutput_of_wrote (h : CcXorLegal s) (hplace : s.opr.dstPtr = s.opr.srcPtr) (hregs : SameRegs s t)
    (hwrote : Wrote s t (xorOutput s)) : xorOutput t = bytesAt s s.opr.dstPtr s.opr.srcLen.toNat := by
  obtain ⟨hopr, hctr, -⟩ := hregs
  have hkey : bytesAt t s.opr.keyPtr 32 = bytesAt s s.opr.keyPtr 32 :=
    bytesAt_of_wrote_apart hwrote ((length_xorOutput s).symm ▸ h.apart.1)
  have hnonce : bytesAt t s.opr.noncePtr 12 = bytesAt s s.opr.noncePtr 12 :=
    bytesAt_of_wrote_apart hwrote ((length_xorOutput s).symm ▸ h.apart.2)
  have hsrc : bytesAt t s.opr.srcPtr s.opr.srcLen.toNat = xorOutput s := by
    simpa [hplace] using bytesAt_of_wrote hwrote
  rw [xorOutput, hopr, hctr, hkey, hnonce, hsrc, hplace]
  exact xcrypt_xcrypt ..

end CcXorLegal

/-- Settles O20: byte `j` of the output is `getElem_xorOutput`. -/
theorem ccXorCompletes : Obligations.CcXorCompletes := by
  intro s hkey hnonce hlength hcounter hsrc hdst hapart hplace
  have h : CcXorLegal s := ⟨hkey, hnonce, hlength, hcounter, hsrc, hdst, hapart, hplace⟩
  obtain ⟨t, hexec, hended, hctx, hinside, houtside⟩ := h.completes
  rw [length_xorOutput] at houtside
  refine ⟨t, hexec, hended, hctx, fun j hj => ⟨counter_lt h.counter hj, ?_⟩, houtside⟩
  rw [hinside j (by simpa using hj), getElem_xorOutput]

/-- Settles O21: the second run writes the first run's data, and canonical memories that read alike are equal. -/
theorem xorInPlaceTwiceRestoresMemory : Obligations.XorInPlaceTwiceRestoresMemory := by
  intro s hwf hkey hnonce hlength hcounter hsrc hplace hapart
  have h : CcXorLegal s := ⟨hkey, hnonce, hlength, hcounter, hsrc, hplace ▸ hsrc, hapart, .inl hplace⟩
  obtain ⟨t, hexec, ⟨-, -, -, -, -, -, hregs⟩, -, hfirst⟩ := h.completes
  obtain ⟨u, hexec', ⟨-, -, herr, -⟩, -, hsecond⟩ := (h.of_sameRegs hregs).completes
  rw [h.xorOutput_of_wrote hplace hregs hfirst] at hsecond
  have hwrote := hfirst.trans hsecond (congrArg _ hregs.1) (by simp [bytesAt])
  have hwf' : u.mem.wf := wf_of_exec_next hexec' (wf_of_exec_next hexec hwf)
  exact ⟨t, u, hexec, hexec', Memory.ext_read hwf' hwf (sameMem_of_wrote_bytesAt hwrote), herr⟩

end Sys2Proof.Machine
end

section
/-! SUPPORT. Poly1305 as integer arithmetic (spec/42_poly1305.md R131 to R137, R145): the clamp byte by byte, the bounds
of one absorption step, and the accumulator of a message as a polynomial in the multiplier. -/

namespace Sys2Proof.Machine

/-! ### The clamp -/

/-- The little-endian bytes of a bitwise and are the ands of the bytes. -/
theorem leBytes_and (x y n : Nat) : leBytes (x &&& y) n = List.zipWith (· &&& ·) (leBytes x n) (leBytes y n) := by
  induction n generalizing x y with
  | zero => rfl
  | succ n ih =>
    have hdiv : (x &&& y) / 256 = x / 256 &&& y / 256 := Nat.and_div_two_pow (n := 8)
    rw [leBytes, leBytes, leBytes, List.zipWith_cons_cons, BitVec.ofNat_and, hdiv, ih]

/-- The mask of R131 as an integer. -/
def clampMask : Nat := 0x0ffffffc0ffffffc0ffffffc0fffffff

/-- The mask that R131 applies to byte `j` of the multiplier. -/
def clampMaskByte (j : Nat) : Byte :=
  if j = 3 ∨ j = 7 ∨ j = 11 ∨ j = 15 then 0x0f else if j = 4 ∨ j = 8 ∨ j = 12 then 0xfc else 0xff

theorem getElem?_leBytes_clampMask : ∀ j < 16, (leBytes clampMask 16)[j]? = some (clampMaskByte j) := by decide

theorem and_clampMaskByte (b : Byte) (j : Nat) :
    b &&& clampMaskByte j =
      if j = 3 ∨ j = 7 ∨ j = 11 ∨ j = 15 then b &&& 0x0f else if j = 4 ∨ j = 8 ∨ j = 12 then b &&& 0xfc else b := by
  have hff : b &&& 0xff = b := BitVec.and_allOnes
  rw [clampMaskByte, apply_ite (b &&& ·), apply_ite (b &&& ·), hff]

theorem toNat_clamp (r : BitVec 128) : (clamp r).toNat = r.toNat &&& clampMask := BitVec.toNat_and ..

theorem toNat_clamp_lt (r : BitVec 128) : (clamp r).toNat < 2 ^ 124 :=
  calc (clamp r).toNat = r.toNat &&& clampMask := toNat_clamp r
    _ ≤ clampMask := Nat.and_le_right
    _ < 2 ^ 124 := by decide

/-- Settles O22: the clamp is an and with R131's mask, whose bytes are those of `clampMaskByte`. -/
theorem clampIsBytewise : Obligations.ClampIsBytewise := by
  refine fun r => ⟨toNat_clamp r, toNat_clamp_lt r, fun j hj => ?_⟩
  rw [toNat_clamp, leBytes_and, List.getElem?_zipWith, getElem?_leBytes_clampMask j hj]
  cases (leBytes r.toNat 16)[j]? with
  | none => rfl
  | some b => exact congrArg some (and_clampMaskByte b j)

/-! ### Bounds -/

theorem le_lt_two_pow (m : List Byte) : le m < 2 ^ (8 * m.length) := by simpa only [Nat.pow_mul] using le_lt m

/-- The integer of a block of at most 16 bytes is below 2^129 (R132, R133). -/
theorem blockInt_lt {m : List Byte} (h : m.length ≤ 16) : blockInt m < 2 ^ 129 := by
  have hle := le_lt_two_pow m
  have hpow : 2 ^ (8 * m.length) ≤ 2 ^ 128 := Nat.pow_le_pow_right (by decide) (by omega)
  rw [blockInt_eq]
  omega

theorem le_polyTag (a : Nat) (s : BitVec 128) : le (polyTag a s) = (a + s.toNat) % 2 ^ 128 := by
  rw [polyTag, le_leBytes]
  exact Nat.mod_mod _ _

/-- Settles O23: a block integer is below 2^129 and the clamped multiplier below 2^124. -/
theorem accumulatorBounds : Obligations.AccumulatorBounds := by
  intro r s a m ha hm
  have hsum : a + blockInt m < (2 ^ 130 - 5) + 2 ^ 129 := Nat.add_lt_add ha (blockInt_lt hm)
  have hsum' : a + blockInt m < 2 ^ 131 := hsum.trans (by decide)
  have hprod : (a + blockInt m) * (clamp r).toNat < 2 ^ 131 * 2 ^ 124 := Nat.mul_lt_mul'' hsum' (toNat_clamp_lt r)
  exact ⟨absorbInt_lt .., hsum, by decide, hprod, le_polyTag a s, Nat.mod_lt _ (by decide)⟩

/-! ### The blocks of a message -/

/-- The 16-byte block `i` of a message, shorter at its end. -/
abbrev blockAt (m : List Byte) (i : Nat) : List Byte := (m.drop (16 * i)).take 16

/-- The integer of a full block (R132). -/
theorem blockInt_of_length {m : List Byte} (h : m.length = 16) : blockInt m = le m + 2 ^ 128 := by rw [blockInt_eq, h]

/-- Absorbing full blocks one after the other is a fold over their numbers (R136). -/
theorem absorbBlocks_eq_foldl (r : BitVec 128) {n : Nat} (a : Nat) {m : List Byte} (h : 16 * n ≤ m.length) :
    absorbBlocks r n a m =
      (List.range n).foldl (fun a i => (a + (le (blockAt m i) + 2 ^ 128)) * r.toNat % polyP) a := by
  induction n with
  | zero => rfl
  | succ n ih =>
    have hlen : (blockAt m n).length = 16 := by simp; omega
    rw [absorbBlocks_succ, ih (by omega), absorbInt, blockInt_of_length hlen, List.range_succ, List.foldl_append,
      List.foldl_cons, List.foldl_nil]

/-- The accumulator of a message is that of its full blocks and, where its length is no multiple of 16, of the block
that is left (R136). -/
theorem polyAcc_eq_absorbBlocks (r : BitVec 128) (m : List Byte) :
    polyAcc r m = absorbBlocks r ((m.length + 15) / 16) 0 m := by
  rw [polyAcc]
  by_cases h0 : m.length % 16 = 0
  · have hrest : m.drop (16 * (m.length / 16)) = [] := List.drop_of_length_le (by omega)
    have hcount : (m.length + 15) / 16 = m.length / 16 := by omega
    simp [hrest, hcount]
  · have hrest : (m.drop (16 * (m.length / 16))).isEmpty = false := by
      rw [List.isEmpty_eq_false_iff, Ne, List.drop_eq_nil_iff]; omega
    have hcount : (m.length + 15) / 16 = m.length / 16 + 1 := by omega
    have hlast : (m.drop (16 * (m.length / 16))).take 16 = m.drop (16 * (m.length / 16)) :=
      List.take_of_length_le (by simp; omega)
    rw [hcount, absorbBlocks_succ, hlast]
    simp [hrest]

/-! ### The closed form -/

/-- The polynomial of the first `n` block integers in the multiplier, the last of them with exponent 1 (R145). -/
def blockPoly (r n : Nat) (m : List Byte) : Nat :=
  ((List.range n).map fun i => blockInt (blockAt m i) * r ^ (n - i)).sum

/-- Horner's rule: one block more multiplies everything by the multiplier once more. -/
theorem blockPoly_succ (r n : Nat) (m : List Byte) :
    blockPoly r (n + 1) m = (blockPoly r n m + blockInt (blockAt m n)) * r := by
  have hterm : ∀ i ∈ List.range n,
      blockInt (blockAt m i) * r ^ (n + 1 - i) = blockInt (blockAt m i) * r ^ (n - i) * r := by
    intro i hi
    rw [Nat.succ_sub (List.mem_range.mp hi).le, pow_succ, mul_assoc]
  rw [blockPoly, List.range_succ, List.map_append, List.sum_append, List.map_congr_left hterm, List.sum_map_mul_right,
    add_mul, blockPoly]
  simp

theorem absorbBlocks_eq_blockPoly (r : BitVec 128) (n : Nat) (m : List Byte) :
    absorbBlocks r n 0 m = blockPoly r.toNat n m % polyP := by
  induction n with
  | zero => rfl
  | succ n ih =>
    have hred : blockPoly r.toNat n m % polyP ≡ blockPoly r.toNat n m [MOD polyP] := Nat.mod_modEq _ _
    rw [absorbBlocks_succ, ih, blockPoly_succ]
    exact (hred.add_right _).mul_right _

/-- Settles O24: `absorbBlocks_eq_blockPoly`, each block integer by `blockInt_eq`. -/
theorem accumulatorIsAPolynomial : Obligations.AccumulatorIsAPolynomial := by
  intro r m t chunk
  rw [polyAcc_eq_absorbBlocks, absorbBlocks_eq_blockPoly, blockPoly]
  simp only [blockInt_eq]
  rfl

end Sys2Proof.Machine
end

section
/-! SUPPORT. The Poly1305 commands (spec/42_poly1305.md R139 to R144): their completion, and a message absorbed in
pieces. -/

namespace Sys2Proof.Machine

/-! ### The checks, and the key's two halves -/

theorem checkMacKey_none {s : State} (h : s.opr.keyLen = 32) : s.checkMacKey = none := if_pos h

theorem checkContext_none {s : State} (h : s.ctx.pctx = true) : s.checkContext = none := if_pos h

/-- A command whose checks are one of its own and then the ranges passes them (R194, R195). -/
theorem inputError_none_of_check {s : State} {i : Instr} {c : Option CmdError}
    (hchecks : s.checks i = [c, s.checkRanges i]) (hc : c = none) (hin : ∀ r ∈ s.inputs i, Fits s r.ptr r.len)
    (hout : Fits s s.opr.dstPtr (s.outCount i)) : s.inputError i = none := by
  rw [State.inputError, hchecks, hc, checkRanges_of_fits hin hout]
  rfl

/-- A command without output and with no input error completes and writes no byte. -/
theorem exec_completes_of_noOutput {s : State} {i : Instr} (h : s.inputError i = none) (hout : s.outCount i = 0)
    (ha : authOk s i = true) :
    ∃ t, exec i s = .next t ∧ Ended s t none (resultOf s i) 0 ∧ SameMem s t ∧ t.ctx = ctxAfter s i := by
  have hbytes : outBytes s i = [] := List.eq_nil_of_length_eq_zero (by rw [length_outBytes ha, hout])
  have hwrote : Wrote s (succeeded s i) [] := hbytes ▸ wrote_succeeded s i
  have hmem : SameMem s (succeeded s i) := fun a => hwrote.2 a (by simp)
  exact ⟨_, exec_success h (badOverlap_of_noOutput hout) ha, hout ▸ ended_succeeded h, hmem, rfl⟩

/-- The integer of a byte string as a word wide enough for it. -/
theorem toNat_ofNat_le_of_length {bs : List Byte} {w : Nat} (h : 8 * bs.length ≤ w) :
    (BitVec.ofNat w (le bs)).toNat = le bs :=
  Nat.mod_eq_of_lt ((le_lt_two_pow bs).trans_le (Nat.pow_le_pow_right (by decide) h))

theorem take_bytesAt (s : State) (p : DWord) {n k : Nat} (h : k ≤ n) : (bytesAt s p n).take k = bytesAt s p k :=
  List.ext_getElem (by simpa [bytesAt] using h) fun j _ _ => by simp [bytesAt]

theorem toNat_polyR (k : List Byte) : (polyR k).toNat = le (k.take 16) &&& clampMask := by
  rw [polyR, toNat_clamp, toNat_ofNat_le_of_length (by simp [slice]; omega)]
  rfl

theorem toNat_polyS {k : List Byte} (h : k.length = 32) : (polyS k).toNat = le (k.drop 16) := by
  have hslice : slice k 16 16 = k.drop 16 := List.take_of_length_le (by simp [h])
  rw [polyS, hslice, toNat_ofNat_le_of_length (by simp [h])]

/-! ### P.INIT, P.ABSORB and P.FINAL -/

/-- Settles O25: the context opened is `PolyCtx.opened` of the key bytes. -/
theorem pInitCompletes : Obligations.PInitCompletes := by
  intro s ⟨hlen, hfits⟩
  have hnone : s.inputError .pInit = none :=
    inputError_none_of_check rfl (checkMacKey_none hlen) (List.forall_mem_singleton.mpr hfits) (.inl rfl)
  obtain ⟨t, hexec, hended, hmem, hctx⟩ := exec_completes_of_noOutput hnone rfl rfl
  have hctx : t.ctx = .opened (bytesAt s s.opr.keyPtr 32) := hctx
  refine ⟨t, hexec, hended, hmem, ?_⟩
  rw [hctx]
  refine ⟨rfl, ?_, toNat_polyS (by simp [bytesAt]), rfl, rfl, fun j hj => by simp [PolyCtx.opened, zeroBuf]⟩
  rw [← take_bytesAt s s.opr.keyPtr (show 16 ≤ 32 by decide)]
  exact toNat_polyR _

/-- Settles O26: `holds_absorb` from the bytes the context kept. -/
theorem pAbsorbCompletes : Obligations.PAbsorbCompletes := by
  intro s hopen hfits all
  have hnone : s.inputError .pAbsorb = none :=
    inputError_none_of_check rfl (checkContext_none hopen) (List.forall_mem_singleton.mpr hfits) (.inl rfl)
  obtain ⟨t, hexec, hended, hmem, hctx⟩ := exec_completes_of_noOutput hnone rfl rfl
  have hholds : t.ctx.Holds s.ctx all := hctx ▸ holds_absorb (holds_start s.ctx) _
  obtain ⟨hpctx, hpr, hps, hacc, hpbl, hpb⟩ := hholds
  rw [absorbBlocks_eq_foldl _ _ (Nat.mul_div_le _ _)] at hacc
  exact ⟨t, hexec, hended, hmem, hpctx.trans hopen, hpr, hps, hacc, hpbl, hpb⟩

/-- The accumulator P.FINAL finishes with, the kept partial block by R133. -/
theorem finalAcc_eq (c : PolyCtx) :
    c.finalAcc = if c.pbl.val = 0 then c.acc
      else (c.acc + (le (c.pb.toList.take c.pbl.val) + 2 ^ (8 * c.pbl.val))) * c.pr.toNat % polyP := by
  have hlen : (c.pb.toList.take c.pbl.val).length = c.pbl.val := by simp
  rw [PolyCtx.finalAcc, absorbInt, blockInt_eq, hlen]

/-- Settles O27: P.FINAL has no input range, and its output is the context's tag. -/
theorem pFinalCompletes : Obligations.PFinalCompletes := by
  intro s hopen hfits a
  have hnone : s.inputError .pFinal = none :=
    inputError_none_of_check rfl (checkContext_none hopen) (List.forall_mem_nil _) hfits
  obtain ⟨t, hexec, hended, hctx, hwrote⟩ := exec_completes hnone (List.forall_mem_nil _) rfl
  have htag : outBytes s .pFinal = leBytes ((a + s.ctx.ps.toNat) % 2 ^ 128) 16 := by
    rw [outBytes, PolyCtx.tag, finalAcc_eq]; rfl
  exact ⟨t, hexec, hended, htag ▸ hwrote, hctx⟩

/-! ### P.TAG and P.VERIFY -/

/-- Settles O28: P.VERIFY's answer is equality of the tags by `ctEqual_iff`. -/
theorem oneShotMacCommandsComplete : Obligations.OneShotMacCommandsComplete := by
  intro s ⟨hlen, hkey⟩ hsrc tag
  constructor
  · intro hdst hkeyApart hplace
    have hnone : s.inputError .pTag = none := inputError_none_of_check rfl (checkMacKey_none hlen)
      (List.forall_mem_cons.mpr ⟨hkey, List.forall_mem_singleton.mpr hsrc⟩) hdst
    exact exec_completes hnone (List.forall_mem_cons.mpr ⟨.inl hkeyApart,
      List.forall_mem_singleton.mpr (hplace.symm.imp_right fun h => ⟨rfl, h⟩)⟩) rfl
  · intro haux
    have hnone : s.inputError .pVerify = none := inputError_none_of_check rfl (checkMacKey_none hlen)
      (List.forall_mem_cons.mpr ⟨hkey, List.forall_mem_cons.mpr ⟨hsrc, List.forall_mem_singleton.mpr haux⟩⟩) (.inl rfl)
    obtain ⟨t, hexec, hended, hmem, hctx⟩ := exec_completes_of_noOutput hnone rfl rfl
    exact ⟨t, _, hexec, hended, hctx, hmem, ctEqual_iff _ _⟩

/-! ### A message in pieces -/

/-- A command that left ERR 0 left its success state. -/
theorem eq_succeeded_of_exec_next {i : Instr} {s t : State} (h : exec i s = .next t) (he : t.err = none) :
    t = succeeded s i := by
  rcases exec_next h with ⟨e, rfl, -⟩ | ⟨-, -, -, ht⟩
  · cases he
  · exact ht

/-- A run of P.ABSORBs on a context that holds some bytes makes it hold the run's message after them (R140). -/
theorem AbsorbRun.holds {c d : PolyCtx} {m : List Byte} (h : AbsorbRun c m d) {c0 : PolyCtx} {x : List Byte}
    (hc : c.Holds c0 x) : d.Holds c0 (x ++ m) := by
  induction h generalizing x with
  | none c => simpa using hc
  | @more s t m d hexec herr _ ih =>
    obtain rfl := eq_succeeded_of_exec_next hexec herr
    rw [← List.append_assoc]
    exact ih (holds_absorb hc _)

/-- Settles O29: the context P.FINAL finds holds the whole message, and its tag is the one-shot tag by `holds_tag`. -/
theorem chunkedMacEqualsOneShot : Obligations.ChunkedMacEqualsOneShot := by
  intro s t u v m hinit hterr hrun hfinal hverr
  obtain rfl := eq_succeeded_of_exec_next hinit hterr
  obtain rfl := eq_succeeded_of_exec_next hfinal hverr
  have hholds : u.ctx.Holds (.opened (bytesAt s s.opr.keyPtr 32)) m := hrun.holds (holds_start _)
  rw [← holds_tag hholds]
  exact wrote_succeeded u .pFinal

end Sys2Proof.Machine
end

section
/-! SUPPORT. The MAC input of the AEAD construction (spec/43_aead.md R161): two padded strings and their lengths. -/

namespace Sys2Proof.Machine

/-! ### A string padded to a multiple of 16 bytes -/

/-- A string and its `pad16` zeros (R8). -/
def padded (x : List Byte) : List Byte := x ++ pad16 x.length

@[simp] theorem length_padded (x : List Byte) : (padded x).length = (x.length + 15) / 16 * 16 := by
  simp only [padded, List.length_append, length_pad16]
  omega

theorem length_le_padded (x : List Byte) : x.length ≤ (padded x).length := by
  rw [padded, List.length_append]
  exact Nat.le_add_right ..

theorem getElem?_padded_data {x : List Byte} {j : Nat} (h : j < x.length) : (padded x)[j]? = x[j]? :=
  List.getElem?_append_left h

theorem getElem?_padded_zero {x : List Byte} {j : Nat} (hlo : x.length ≤ j) (hhi : j < (padded x).length) :
    (padded x)[j]? = some 0 := by
  have hpad : j - x.length < (16 - x.length % 16) % 16 := by
    simp only [padded, List.length_append, length_pad16] at hhi
    omega
  rw [padded, List.getElem?_append_right hlo, pad16, List.getElem?_replicate_of_lt hpad]

theorem macData_eq (a c : List Byte) :
    macData a c = padded a ++ padded c ++ leBytes a.length 8 ++ leBytes c.length 8 := by
  simp only [macData, padded, List.append_assoc]

/-! ### The four parts of the MAC input -/

theorem getElem?_append_middle {α : Type} (x y z : List α) {j : Nat} (h : j < y.length) :
    (x ++ y ++ z)[x.length + j]? = y[j]? := by
  rw [List.append_assoc, List.getElem?_append_right (Nat.le_add_right ..), Nat.add_sub_cancel_left,
    List.getElem?_append_left h]

theorem getElem?_leBytes {x n j : Nat} (h : j < n) : (leBytes x n)[j]? = some (BitVec.ofNat 8 (x / 2 ^ (8 * j))) := by
  rw [List.getElem?_eq_getElem (by simpa using h), getElem_leBytes, Nat.pow_mul]

theorem length_macData (a c : List Byte) : (macData a c).length = (padded a).length + (padded c).length + 16 := by
  simp only [macData_eq, List.length_append, length_leBytes]

theorem getElem?_macData_aad {a c : List Byte} {j : Nat} (h : j < (padded a).length) :
    (macData a c)[j]? = (padded a)[j]? := by
  rw [macData_eq, List.append_assoc, List.append_assoc, List.getElem?_append_left h]

theorem getElem?_macData_ciphertext {a c : List Byte} {j : Nat} (h : j < (padded c).length) :
    (macData a c)[(padded a).length + j]? = (padded c)[j]? := by
  rw [macData_eq, List.append_assoc, getElem?_append_middle _ _ _ h]

theorem getElem?_macData_aadLength {a c : List Byte} {j : Nat} (h : j < 8) :
    (macData a c)[(padded a).length + (padded c).length + j]? = some (BitVec.ofNat 8 (a.length / 2 ^ (8 * j))) := by
  rw [macData_eq, ← List.length_append, getElem?_append_middle _ _ _ (by simpa using h), getElem?_leBytes h]

theorem getElem?_macData_ciphertextLength {a c : List Byte} {j : Nat} (h : j < 8) :
    (macData a c)[(padded a).length + (padded c).length + 8 + j]? =
      some (BitVec.ofNat 8 (c.length / 2 ^ (8 * j))) := by
  have hparts : (padded a).length + (padded c).length + 8 =
      (padded a ++ padded c ++ leBytes a.length 8).length := by simp only [List.length_append, length_leBytes]
  rw [macData_eq, hparts, ← getElem?_leBytes h, List.getElem?_append_right (Nat.le_add_right ..),
    Nat.add_sub_cancel_left]

/-! ### What the MAC input determines -/

theorem leBytes_injective {x y n : Nat} (hx : x < 256 ^ n) (hy : y < 256 ^ n) (h : leBytes x n = leBytes y n) :
    x = y := by
  have hle := congrArg le h
  rwa [le_leBytes, le_leBytes, Nat.mod_eq_of_lt hx, Nat.mod_eq_of_lt hy] at hle

theorem padded_inj {x y : List Byte} (hlen : x.length = y.length) (h : padded x = padded y) : x = y :=
  (List.append_inj h hlen).1

/-- The two length fields fix where the padded parts end, and these fix the strings (R161). -/
theorem macData_inj {a c a' c' : List Byte} (ha : a.length < 2 ^ 64) (hc : c.length < 2 ^ 64)
    (ha' : a'.length < 2 ^ 64) (hc' : c'.length < 2 ^ 64) (h : macData a c = macData a' c') : a = a' ∧ c = c' := by
  rw [macData_eq, macData_eq] at h
  obtain ⟨h, hclen⟩ := List.append_inj' h (by simp)
  obtain ⟨h, halen⟩ := List.append_inj' h (by simp)
  have halen : a.length = a'.length := leBytes_injective (n := 8) ha ha' halen
  have hclen : c.length = c'.length := leBytes_injective (n := 8) hc hc' hclen
  obtain ⟨hpa, hpc⟩ := List.append_inj h (by simp only [length_padded, halen])
  exact ⟨padded_inj halen hpa, padded_inj hclen hpc⟩

/-- Settles O30: the ends of the layout's parts are the lengths of the padded strings. -/
theorem macInputIsUnambiguous : Obligations.MacInputIsUnambiguous := by
  refine ⟨fun a c _ _ => ?_, fun a c => ?_, fun _ _ _ _ => macData_inj⟩
  · simp only [← length_padded]
    refine ⟨length_macData a c, fun j hj => ?_, fun j hlo hhi => ?_, fun j hj => ?_, fun j hlo hhi => ?_,
      fun _ => getElem?_macData_aadLength, fun _ => getElem?_macData_ciphertextLength⟩
    · rw [getElem?_macData_aad (hj.trans_le (length_le_padded a)), getElem?_padded_data hj]
    · rw [getElem?_macData_aad hhi, getElem?_padded_zero hlo hhi]
    · rw [getElem?_macData_ciphertext (hj.trans_le (length_le_padded c)), getElem?_padded_data hj]
    · obtain ⟨i, rfl⟩ := Nat.exists_eq_add_of_le (show (padded a).length ≤ j by omega)
      have hi : i < (padded c).length := by omega
      rw [getElem?_macData_ciphertext hi, getElem?_padded_zero (by omega) hi]
  · rw [length_macData, length_padded, length_padded]
    omega

end Sys2Proof.Machine
end

section
/-! SUPPORT. The AEAD commands and CT.EQ (spec/43_aead.md R162 to R168): the operands that meet their checks, their
completion, and the opening of a sealed message. -/

namespace Sys2Proof.Machine

/-! ### Sealing and opening byte strings -/

/-- The keystream XOR as the statements write it, byte by byte (R120). -/
theorem xcrypt_eq_mapIdx (k n : List Byte) (ctr : Word) (d : List Byte) :
    xcrypt k n ctr d =
      d.mapIdx fun j b => b ^^^ (keyedBlock k n (BitVec.ofNat 32 (ctr.toNat + j / 64))).getD (j % 64) 0 := by
  apply List.ext_getElem (by simp)
  intro j _ _
  have hj : j % 64 < 64 := Nat.mod_lt j (by decide)
  simp [getElem_xcrypt, hj]

theorem length_aeadTag (k n c a : List Byte) : (aeadTag k n c a).length = 16 := length_poly1305 ..

/-- An envelope of a ciphertext and 16 more bytes opens to the decryption exactly when these are the tag (R163). -/
theorem openBytes_append {k n c t a : List Byte} (ht : t.length = 16) :
    openBytes k n (c ++ t) a = if aeadTag k n c a = t then some (xcrypt k n 1 c) else none := by
  have hlen : (c ++ t).length - 16 = c.length := by rw [List.length_append, ht, Nat.add_sub_cancel]
  simp only [openBytes, hlen, List.take_left, List.drop_left, ctEqual_iff]

/-- Opening undoes sealing (R168). -/
theorem openBytes_sealBytes (k n p a : List Byte) : openBytes k n (sealBytes k n p a) a = some p := by
  rw [sealBytes, openBytes_append (length_aeadTag ..), if_pos rfl, xcrypt_xcrypt]

/-! ### The checks and the completion of AE.SEAL and AE.OPEN -/

/-- The operands and the `n` output bytes of AE.SEAL or AE.OPEN pass all checks but those of the length (R195). -/
structure AeadLegal (s : State) (n : Nat) : Prop where
  key : KeyOk s
  nonce : NonceOk s
  src : Fits s s.opr.srcPtr s.opr.srcLen.toNat
  aad : Fits s s.opr.aadPtr s.opr.aadLen.toNat
  dst : Fits s s.opr.dstPtr n

/-- The `n` output bytes of AE.SEAL or AE.OPEN overlap no input but SRC in place (R57). -/
structure AeadApart (s : State) (n : Nat) : Prop where
  keys : OutApartFromKeys s n
  aad : Apart s.opr.dstPtr n s.opr.aadPtr s.opr.aadLen.toNat
  place : OutInPlaceOrApart s n s.opr.srcLen.toNat

/-- The input ranges of AE.SEAL and of AE.OPEN (R76). -/
def State.aeadInputs (s : State) : List Range := [s.keyRange, s.nonceRange, s.srcRange, s.aadRange]

theorem forall_aeadInputs {s : State} {P : Range → Prop} :
    (∀ r ∈ s.aeadInputs, P r) ↔ P s.keyRange ∧ P s.nonceRange ∧ P s.srcRange ∧ P s.aadRange := by
  simp only [State.aeadInputs, List.forall_mem_cons, List.not_mem_nil, false_implies, implies_true, and_true]

theorem checkKey_none_iff {s : State} : s.checkKey = none ↔ s.opr.keyLen = 32 := by simp [State.checkKey]

theorem checkNonce_none_iff {s : State} : s.checkNonce = none ↔ s.opr.nonceLen = 12 := by simp [State.checkNonce]

theorem checkEnvelope_none_iff {s : State} : s.checkEnvelope = none ↔ 16 ≤ s.opr.srcLen.toNat := by
  simp [State.checkEnvelope]

/-- The key, nonce and range checks of an AEAD command together. -/
theorem aeadLegal_iff {s : State} {i : Instr} (hin : s.inputs i = s.aeadInputs) :
    AeadLegal s (s.outCount i) ↔ s.checkKey = none ∧ s.checkNonce = none ∧ s.checkRanges i = none := by
  rw [checkKey_none_iff, checkNonce_none_iff, checkRanges_none, hin, forall_aeadInputs]
  simp only [valid_iff]
  constructor
  · rintro ⟨⟨hkeyLen, hkey⟩, ⟨hnonceLen, hnonce⟩, hsrc, haad, hdst⟩
    exact ⟨hkeyLen, hnonceLen, ⟨hkey, hnonce, hsrc, haad⟩, hdst⟩
  · rintro ⟨hkeyLen, hnonceLen, ⟨hkey, hnonce, hsrc, haad⟩, hdst⟩
    exact ⟨⟨hkeyLen, hkey⟩, ⟨hnonceLen, hnonce⟩, hsrc, haad, hdst⟩

/-- Which states pass the checks of AE.SEAL (R165, R195). -/
theorem inputError_aeSeal_none_iff {s : State} :
    s.inputError .aeSeal = none ↔ AeadLegal s (s.outCount .aeSeal) ∧ s.opr.srcLen.toNat ≤ maxMessage := by
  rw [aeadLegal_iff rfl, ← checkLength_none, State.inputError, firstError_none]
  simp only [State.checks, List.forall_mem_cons, List.not_mem_nil, false_implies, implies_true, and_true]
  tauto

/-- Which states pass the checks of AE.OPEN (R166, R195). -/
theorem inputError_aeOpen_none_iff {s : State} :
    s.inputError .aeOpen = none ↔ AeadLegal s (s.outCount .aeOpen) ∧ 16 ≤ s.opr.srcLen.toNat ∧
      s.opr.srcLen.toNat - 16 ≤ maxMessage := by
  rw [aeadLegal_iff rfl, ← checkLength_none, ← checkEnvelope_none_iff, State.inputError, firstError_none]
  simp only [State.checks, List.forall_mem_cons, List.not_mem_nil, false_implies, implies_true, and_true]
  tauto

theorem aead_completes {s : State} {i : Instr} (hin : s.inputs i = s.aeadInputs) (hnone : s.inputError i = none)
    (hapart : AeadApart s (s.outCount i)) (ha : authOk s i = true) :
    ∃ t, exec i s = .next t ∧ Ended s t none (resultOf s i) (s.outCount i) ∧ t.ctx = ctxAfter s i ∧
      Wrote s t (outBytes s i) := by
  obtain ⟨⟨hkey, hnonce⟩, haad, hplace⟩ := hapart
  refine exec_completes hnone ?_ ha
  rw [hin, forall_aeadInputs]
  exact ⟨.inl hkey, .inl hnonce, hplace.symm.imp_right fun hp => ⟨rfl, hp⟩, .inl haad⟩

/-- AE.OPEN of an envelope that opens writes what it opens to (R166). -/
theorem aeOpen_completes {s : State} {p : List Byte} (hnone : s.inputError .aeOpen = none)
    (hapart : AeadApart s (s.opr.srcLen.toNat - 16))
    (hopen : openBytes (bytesAt s s.opr.keyPtr 32) (bytesAt s s.opr.noncePtr 12)
      (bytesAt s s.opr.srcPtr s.opr.srcLen.toNat) (bytesAt s s.opr.aadPtr s.opr.aadLen.toNat) = some p) :
    ∃ t, exec .aeOpen s = .next t ∧ Ended s t none true (s.opr.srcLen.toNat - 16) ∧ t.ctx = s.ctx ∧ Wrote s t p := by
  have hout : outBytes s .aeOpen = p := congrArg (·.getD []) hopen
  exact hout ▸ aead_completes rfl hnone hapart (authOk_iff.mpr fun _ => ⟨p, hopen⟩)

/-- AE.OPEN of an envelope that does not open raises auth_failed (R196). -/
theorem aeOpen_raises {s : State} (hnone : s.inputError .aeOpen = none)
    (hopen : openBytes (bytesAt s s.opr.keyPtr 32) (bytesAt s s.opr.noncePtr 12)
      (bytesAt s s.opr.srcPtr s.opr.srcLen.toNat) (bytesAt s s.opr.aadPtr s.opr.aadLen.toNat) = none) :
    ∃ t, exec .aeOpen s = .next t ∧ Raised s t .authFailed :=
  ⟨_, (exec_authFailed hnone (congrArg Option.isSome hopen)).2, raised_raise ..⟩

/-- Settles O31: the output is `sealBytes`, its ciphertext by `xcrypt_eq_mapIdx` at counter 1. -/
theorem aeSealCompletes : Obligations.AeSealCompletes := by
  intro s hkey hnonce hlength hsrc haad hdst hkeysApart haadApart hplace
  have hnone : s.inputError .aeSeal = none :=
    inputError_aeSeal_none_iff.mpr ⟨⟨hkey, hnonce, hsrc, haad, hdst⟩, hlength⟩
  obtain ⟨t, hexec, hended, hctx, hwrote⟩ := aead_completes rfl hnone ⟨hkeysApart, haadApart, hplace⟩ rfl
  refine ⟨t, hexec, hended, hctx, ?_⟩
  have hcipher := xcrypt_eq_mapIdx (bytesAt s s.opr.keyPtr 32) (bytesAt s s.opr.noncePtr 12) 1
    (bytesAt s s.opr.srcPtr s.opr.srcLen.toNat)
  exact hcipher ▸ hwrote

/-- Settles O32: whether the envelope opens is whether its tag is the expected one. -/
theorem aeOpenCompletesOrFailsAuthentication : Obligations.AeOpenCompletesOrFailsAuthentication := by
  intro s hkey hnonce henvelope hlength hsrc haad hdst k n c tag expected
  have hnone : s.inputError .aeOpen = none :=
    inputError_aeOpen_none_iff.mpr ⟨⟨hkey, hnonce, hsrc, haad, hdst⟩, henvelope, hlength⟩
  have hcipher : (bytesAt s s.opr.srcPtr s.opr.srcLen.toNat).take (s.opr.srcLen.toNat - 16) = c :=
    take_bytesAt s _ (Nat.sub_le ..)
  have hsplit : bytesAt s s.opr.srcPtr s.opr.srcLen.toNat = c ++ tag :=
    hcipher ▸ (List.take_append_drop _ _).symm
  have htagLen : tag.length = 16 := by
    rw [List.length_drop, bytesAt, Memory.length_readBytes, Nat.sub_sub_self henvelope]
  have hopen : openBytes k n (bytesAt s s.opr.srcPtr s.opr.srcLen.toNat) (bytesAt s s.opr.aadPtr s.opr.aadLen.toNat) =
      if expected = tag then some (xcrypt k n 1 c) else none := by
    rw [hsplit]
    exact openBytes_append htagLen
  constructor
  · intro htag hkeysApart haadApart hplace
    have hplain := xcrypt_eq_mapIdx k n 1 c
    exact hplain ▸ aeOpen_completes hnone ⟨hkeysApart, haadApart, hplace⟩ (hopen.trans (if_pos htag))
  · intro htag
    exact aeOpen_raises hnone (hopen.trans (if_neg htag))

/-! ### CT.EQ -/

theorem bytesAt_eq_iff {s : State} {p q : DWord} {m n : Nat} :
    bytesAt s p m = bytesAt s q n ↔ m = n ∧ ∀ j < m, s.mem.read (p.toNat + j) = s.mem.read (q.toNat + j) := by
  constructor
  · intro h
    obtain rfl : m = n := by simpa [bytesAt] using congrArg List.length h
    exact ⟨rfl, fun j hj => by simpa [bytesAt, hj] using congrArg (·[j]?) h⟩
  · rintro ⟨rfl, h⟩
    exact List.ext_getElem (by simp [bytesAt]) fun j hj _ => by simpa [bytesAt] using h j (by simpa [bytesAt] using hj)

/-- Settles O33: the comparison decides equality of byte strings by `ctEqual_iff`. -/
theorem ctEqCompletes : Obligations.CtEqCompletes := by
  intro s hsrc haux
  have hranges : s.checkRanges .ctEq = none :=
    checkRanges_of_fits (List.forall_mem_cons.mpr ⟨hsrc, List.forall_mem_singleton.mpr haux⟩) (.inl rfl)
  have hnone : s.inputError .ctEq = none := firstError_none.mpr (List.forall_mem_singleton.mpr hranges)
  obtain ⟨t, hexec, hended, hmem, hctx⟩ := exec_completes_of_noOutput hnone rfl rfl
  refine ⟨t, _, hexec, hended, hctx, hmem, ?_⟩
  rw [← BitVec.toNat_inj, ← bytesAt_eq_iff]
  exact ctEqual_iff _ _

/-! ### Opening what was sealed -/

/-- The output of a command that succeeded lies apart from every input but SRC (R57). -/
theorem apart_of_badOverlap_false {s : State} {i : Instr} {r : Range} (h : s.badOverlap i = false)
    (hr : r ∈ s.inputs i) (hwho : r.who ≠ .src) : Apart s.opr.dstPtr (s.outCount i) r.ptr r.len :=
  meets_false.mp ((badOverlap_false.mp h r hr).resolve_right fun hsrc => hwho hsrc.1)

/-- A command that succeeded left the bytes of every input but SRC as they were. -/
theorem bytesAt_succeeded {s : State} {i : Instr} {r : Range} (ha : authOk s i = true) (h : s.badOverlap i = false)
    (hr : r ∈ s.inputs i) (hwho : r.who ≠ .src) : bytesAt (succeeded s i) r.ptr r.len = bytesAt s r.ptr r.len :=
  bytesAt_of_wrote_apart (wrote_succeeded s i) (length_outBytes ha ▸ apart_of_badOverlap_false h hr hwho)

/-- AE.SEAL's output length is a 64-bit value (R121). -/
theorem toNat_srcLen_add_sixteen {s : State} (h : s.opr.srcLen.toNat ≤ maxMessage) :
    (s.opr.srcLen + 16).toNat = s.opr.srcLen.toNat + 16 := by
  rw [maxMessage] at h
  exact BitVec.toNat_add_of_lt (show s.opr.srcLen.toNat + 16 < 2 ^ 64 by omega)

/-- AE.OPEN of the output of AE.SEAL passes its checks when the new output range does (R168, R195). -/
theorem inputError_aeOpen_of_sealed {s u : State} {d : DWord} (hsealed : s.inputError .aeSeal = none)
    (hcfg : u.cfg = s.cfg)
    (hopr : u.opr = { s.opr with srcPtr := s.opr.dstPtr, srcLen := s.opr.srcLen + 16, dstPtr := d })
    (hdst : Fits u d s.opr.srcLen.toNat) : u.inputError .aeOpen = none := by
  obtain ⟨⟨hkey, hnonce, -, haad, henvelope⟩, hlength⟩ := inputError_aeSeal_none_iff.mp hsealed
  have hlen := toNat_srcLen_add_sixteen hlength
  rw [Fits, State.memBytes, hcfg] at hdst
  rw [inputError_aeOpen_none_iff, State.outCount, hopr, hlen, Nat.add_sub_cancel]
  refine ⟨?_, Nat.le_add_left .., hlength⟩
  constructor <;> simpa only [KeyOk, NonceOk, Fits, State.memBytes, hcfg, hopr, hlen]

/-- The operands of AE.OPEN hold what AE.SEAL read and wrote: the output overlapped no input but SRC. -/
theorem openBytes_of_sealed {s u : State} {d : DWord} (hsealed : s.inputError .aeSeal = none)
    (hoverlap : s.badOverlap .aeSeal = false) (hmem : u.mem = (succeeded s .aeSeal).mem)
    (hopr : u.opr = { s.opr with srcPtr := s.opr.dstPtr, srcLen := s.opr.srcLen + 16, dstPtr := d }) :
    openBytes (bytesAt u u.opr.keyPtr 32) (bytesAt u u.opr.noncePtr 12)
      (bytesAt u u.opr.srcPtr u.opr.srcLen.toNat) (bytesAt u u.opr.aadPtr u.opr.aadLen.toNat) =
      some (bytesAt s s.opr.srcPtr s.opr.srcLen.toNat) := by
  have hlen := toNat_srcLen_add_sixteen (inputError_aeSeal_none_iff.mp hsealed).2
  have hbytes : bytesAt u = bytesAt (succeeded s .aeSeal) := by unfold bytesAt; rw [hmem]
  have hkept := fun r => bytesAt_succeeded (r := r) (i := .aeSeal) rfl hoverlap
  have hkey : bytesAt u s.opr.keyPtr 32 = bytesAt s s.opr.keyPtr 32 :=
    hbytes ▸ hkept s.keyRange (by simp [State.inputs]) nofun
  have hnonce : bytesAt u s.opr.noncePtr 12 = bytesAt s s.opr.noncePtr 12 :=
    hbytes ▸ hkept s.nonceRange (by simp [State.inputs]) nofun
  have haad : bytesAt u s.opr.aadPtr s.opr.aadLen.toNat = bytesAt s s.opr.aadPtr s.opr.aadLen.toNat :=
    hbytes ▸ hkept s.aadRange (by simp [State.inputs]) nofun
  have hsrc : bytesAt u s.opr.dstPtr (s.opr.srcLen.toNat + 16) = outBytes s .aeSeal := by
    rw [hbytes, ← bytesAt_of_wrote (wrote_succeeded s .aeSeal), length_outBytes rfl]
    rfl
  rw [hopr, hlen, hkey, hnonce, haad, hsrc]
  exact openBytes_sealBytes ..

/-- Settles O34: AE.OPEN passes its checks and reads an envelope that `openBytes_sealBytes` opens. -/
theorem sealThenOpenGivesThePlaintext : Obligations.SealThenOpenGivesThePlaintext := by
  intro s t u d hseal herr hmem hcfg hopr hdst hkeysApart haadApart hplace
  rcases exec_next hseal with ⟨e, rfl, -⟩ | ⟨hsealed, hoverlap, -, rfl⟩
  · cases herr
  have hopen := openBytes_of_sealed hsealed hoverlap hmem hopr
  have hnone := inputError_aeOpen_of_sealed hsealed hcfg hopr hdst
  have hlen : u.opr.srcLen.toNat = s.opr.srcLen.toNat + 16 := by
    rw [hopr]
    exact toNat_srcLen_add_sixteen (inputError_aeSeal_none_iff.mp hsealed).2
  have hout : u.opr.srcLen.toNat - 16 = s.opr.srcLen.toNat := by rw [hlen, Nat.add_sub_cancel]
  have hapart : AeadApart u (u.opr.srcLen.toNat - 16) := by
    rw [hout]
    exact ⟨hkeysApart, by rw [hopr]; exact haadApart, hlen ▸ hplace⟩
  obtain ⟨v, hexec, hended, -, hwrote⟩ := aeOpen_completes hnone hapart hopen
  exact ⟨v, hexec, hout ▸ hended, hwrote⟩

end Sys2Proof.Machine
end

section
/-! SUPPORT. How a command ends with an error (spec/60_exceptions.md R190 to R199): the state it leaves, the order in which
the checks name it, and the interrupt of a completion. -/

namespace Sys2Proof.Machine

/-! ### The state an error leaves -/

/-- A command that ends with an error has raised it and done nothing else (R193). -/
theorem raised_of_exec {i : Instr} {s t : State} {e : CmdError} (h : exec i s = .next t) (he : t.err = some e) :
    Raised s t e := by
  rcases exec_next h with ⟨e', rfl, -⟩ | ⟨-, -, -, rfl⟩
  · rw [raise_err, Option.some.injEq] at he
    exact he ▸ raised_raise s e'
  · cases he

/-- An ENGINE step that ends with an error has raised it and done nothing else, at an illegal word too (R73, R193). -/
theorem raised_of_engineStep {s t : State} {e : CmdError} (h : s.engineStep = .next t) (he : t.err = some e) :
    Raised s t e := by
  rcases engineStep_cases s with ⟨i, -, h'⟩ | ⟨-, -, h'⟩
  · exact raised_of_exec (h' ▸ h) he
  · rw [h', Host.Outcome.next.injEq] at h
    subst h
    cases he
    exact raised_raise s .badCommand

/-- Settles O8: `raised_of_exec` for a command, `raised_of_engineStep` for a step. -/
theorem errorChangesNothingElse : Obligations.ErrorChangesNothingElse :=
  ⟨fun _ _ _ _ => raised_of_exec, fun _ _ _ hm h => raised_of_engineStep (next_of_engineMoves hm h)⟩

/-! ### The checks in the order of R194 -/

/-- The commands that check a key and a nonce (R195). -/
abbrev Keyed (i : Instr) : Prop := i = .ccBlock ∨ i = .ccOtk ∨ i = .ccXor ∨ i = .aeSeal ∨ i = .aeOpen

/-- The commands that check a one-time key (R195). -/
abbrev MacKeyed (i : Instr) : Prop := i = .pInit ∨ i = .pTag ∨ i = .pVerify

/-- The commands that need an open streaming context (R195). -/
abbrev Streams (i : Instr) : Prop := i = .pAbsorb ∨ i = .pFinal

/-- AE.OPEN's envelope has no room for a tag (R191). -/
abbrev ShortEnvelope (s : State) (i : Instr) : Prop := i = .aeOpen ∧ s.opr.srcLen.toNat < 16

/-- The message is too long for the byte limit or, of CC.XOR, for the counters that are left (R121). -/
abbrev TooLong (s : State) (i : Instr) : Prop :=
  (i = .ccXor ∧ (maxMessage < s.opr.srcLen.toNat ∨ 2 ^ 32 - s.ctr.toNat < ceil64 s.opr.srcLen.toNat)) ∨
    (i = .aeSeal ∧ maxMessage < s.opr.srcLen.toNat) ∨ (i = .aeOpen ∧ maxMessage < s.opr.srcLen.toNat - 16)

/-- Every range that a command reads or writes is valid, in exact arithmetic (R54, R76). -/
def RangesFit (s : State) (i : Instr) : Prop :=
  (∀ r ∈ s.inputs i, Fits s r.ptr r.len) ∧ Fits s s.opr.dstPtr (s.outCount i)

/-- An empty range is valid wherever it lies (R54). -/
theorem fits_zero (s : State) (p : DWord) : Fits s p 0 := .inl rfl

/-- A check that is the last decides (R194). -/
theorem firstError_last (c : Option CmdError) : firstError [c] = c := by cases c <;> rfl

/-- A check that fails on a condition hides the later ones exactly when the condition holds (R194). -/
theorem firstError_fail_if (p : Prop) [Decidable p] (e : CmdError) (cs : List (Option CmdError)) :
    firstError ((if p then some e else none) :: cs) = if p then some e else firstError cs := by
  split <;> rfl

/-- A check that passes on a condition hides the later ones exactly when the condition fails (R194). -/
theorem firstError_pass_if (p : Prop) [Decidable p] (e : CmdError) (cs : List (Option CmdError)) :
    firstError ((if p then none else some e) :: cs) = if ¬p then some e else firstError cs := by
  rw [ite_not]
  split <;> rfl

/-- The order of the checks, said once for all commands: context, key, nonce, envelope, length, ranges (R194, R195). -/
theorem inputError_eq (s : State) (i : Instr) :
    s.inputError i =
      if Streams i ∧ s.ctx.pctx = false then some .noContext
      else if Keyed i ∧ s.opr.keyLen ≠ 32 then some .invalidKey
      else if MacKeyed i ∧ s.opr.keyLen ≠ 32 then some .invalidMacKey
      else if Keyed i ∧ s.opr.nonceLen ≠ 12 then some .invalidNonce
      else if ShortEnvelope s i then some .invalidEnvelope
      else if TooLong s i then some .messageTooLong
      else s.checkRanges i := by
  cases i <;>
    simp [State.inputError, State.checks, State.checkContext, State.checkKey, State.checkMacKey, State.checkNonce,
      State.checkEnvelope, checkLength, checkCounter, firstError_fail_if, firstError_pass_if, firstError_last, ite_or,
      Streams, Keyed, MacKeyed, ShortEnvelope, TooLong]

/-- A command whose context, key and nonce pass is left with its envelope, its length and its ranges (R195). -/
theorem inputError_of_operands {s : State} {i : Instr} (hctx : Streams i → s.ctx.pctx = true)
    (hkey : Keyed i ∨ MacKeyed i → s.opr.keyLen = 32) (hnonce : Keyed i → s.opr.nonceLen = 12) :
    s.inputError i =
      if ShortEnvelope s i then some .invalidEnvelope
      else if TooLong s i then some .messageTooLong
      else s.checkRanges i := by
  rw [inputError_eq, if_neg fun h => Bool.false_ne_true (h.2.symm.trans (hctx h.1)), if_neg fun h => h.2 (hkey (.inl h.1)),
    if_neg fun h => h.2 (hkey (.inr h.1)), if_neg fun h => h.2 (hnonce h.1)]

/-- The last check names mem_fault when some range does not fit (R54, R191). -/
theorem checkRanges_memFault {s : State} {i : Instr} (h : ¬RangesFit s i) : s.checkRanges i = some .memFault := by
  refine if_neg fun hvalid => h ?_
  have hnone : s.checkRanges i = none := if_pos hvalid
  obtain ⟨hin, hout⟩ := checkRanges_none.mp hnone
  exact ⟨fun r hr => valid_iff.mp (hin r hr), valid_iff.mp hout⟩

theorem not_streams_of_keyed {i : Instr} (h : Keyed i) : ¬Streams i := by
  rcases h with rfl | rfl | rfl | rfl | rfl <;> decide

theorem not_streams_of_macKeyed {i : Instr} (h : MacKeyed i) : ¬Streams i := by
  rcases h with rfl | rfl | rfl <;> decide

theorem not_keyed_of_macKeyed {i : Instr} (h : MacKeyed i) : ¬Keyed i := by
  rcases h with rfl | rfl | rfl <;> decide

theorem keyed_of_shortEnvelope {s : State} {i : Instr} (h : ShortEnvelope s i) : Keyed i := by
  obtain ⟨rfl, -⟩ := h
  decide

theorem keyed_of_tooLong {s : State} {i : Instr} (h : TooLong s i) : Keyed i := by
  rcases h with ⟨rfl, -⟩ | ⟨rfl, -⟩ | ⟨rfl, -⟩ <;> decide

/-- A command raises the error that its checks name (R193, R194). -/
theorem raises_of_inputError {s : State} {i : Instr} {e : CmdError} (h : s.inputError i = some e) :
    ∃ t, exec i s = .next t ∧ Raised s t e :=
  ⟨_, exec_error h, raised_raise s e⟩

/-- Settles O9: each clause is one branch of `inputError_eq`, those before it excluded by the kind of the command or by
the clause's own conditions. -/
theorem errorsAreReportedInOrder : Obligations.ErrorsAreReportedInOrder := by
  intro s i raises keyed mac streams short long key nonce src dst ranges
  have hfit : RangesFit s i → ranges := by
    rintro ⟨hin, hout⟩
    cases i <;>
      simpa [ranges, key, nonce, src, dst, State.inputs, State.outCount, State.stateRange, State.keyRange, State.nonceRange,
        State.srcRange, State.aadRange, State.auxRange, and_assoc, fits_zero] using And.intro hin hout
  refine ⟨fun hi hctx => raises_of_inputError ?_, fun hi hkey => raises_of_inputError ?_,
    fun hi hkey => raises_of_inputError ?_, fun hi hkey hnonce => raises_of_inputError ?_,
    fun hkey hnonce hi => raises_of_inputError ?_, fun hkey hnonce hs (hi : TooLong s i) => raises_of_inputError ?_,
    fun hctx hkey hnonce hs (hl : ¬TooLong s i) hr => raises_of_inputError ?_⟩
  · rw [inputError_eq, if_pos ⟨hi, hctx⟩]
  · rw [inputError_eq, if_neg fun h => not_streams_of_keyed hi h.1, if_pos ⟨hi, hkey⟩]
  · rw [inputError_eq, if_neg fun h => not_streams_of_macKeyed hi h.1, if_neg fun h => not_keyed_of_macKeyed hi h.1,
      if_pos ⟨hi, hkey⟩]
  · rw [inputError_eq, if_neg fun h => not_streams_of_keyed hi h.1, if_neg fun h => h.2 hkey, if_neg fun h => h.2 hkey,
      if_pos ⟨hi, hnonce⟩]
  · have hctx : Streams i → s.ctx.pctx = true := fun h => absurd h (not_streams_of_keyed (keyed_of_shortEnvelope hi))
    rw [inputError_of_operands hctx (fun _ => hkey) fun _ => hnonce, if_pos hi]
  · have hctx : Streams i → s.ctx.pctx = true := fun h => absurd h (not_streams_of_keyed (keyed_of_tooLong hi))
    rw [inputError_of_operands hctx (fun _ => hkey) fun _ => hnonce, if_neg hs, if_pos hi]
  · rw [inputError_of_operands hctx hkey hnonce, if_neg hs, if_neg hl, checkRanges_memFault (mt hfit hr)]

/-! ### The interrupt -/

/-- With DONE set, irq is IE (R198). -/
theorem irq_of_done {s t : State} (hdone : t.done = true) (hie : t.ie = s.ie) : t.irq = s.ie := by
  rw [State.irq, hdone, hie, Bool.true_and]

/-- With DONE clear, irq is clear (R198). -/
theorem irq_of_not_done {t : State} (hdone : t.done = false) : t.irq = false := by
  rw [State.irq, hdone, Bool.false_and]

/-- The step in which a write of CTRL lands (R33). -/
theorem next_of_control {s t : State} {v : DWord} (hl : LandsNext s (.host (.wr 0x10 8 v))) (h : step s = .next t) :
    t = { s with ie := v.getLsbD 0, env := t.env } :=
  next_of_write (r := .ctrl) hl rfl h

/-- Settles O50: a completion sets DONE and keeps IE; an issue, an acknowledgement and reset clear DONE, and a write of
CTRL with bit 0 clear clears IE. -/
theorem interruptLine : Obligations.InterruptLine := by
  refine ⟨fun s => Bool.and_eq_true_iff, fun i s t h => ?_, fun s t hm h => ?_, fun s t h hcause => ?_⟩
  · obtain ⟨⟨-, -, hie, -⟩, -, hdone, -⟩ := commandsWriteOnlyTheirOutput i s t h
    exact irq_of_done hdone hie
  · obtain ⟨-, hdone, -, -, -, hie, -⟩ := engineStep_next (next_of_engineMoves hm h)
    exact irq_of_done hdone hie
  · obtain ⟨-, hissue, hack, -⟩ := doneChangesExactlyAsStated s t h
    rcases hcause with ⟨v, hb, hl⟩ | ⟨v, hl, hv⟩ | ⟨v, hl, hv⟩ | hl
    · exact irq_of_not_done (hissue v hb hl)
    · exact irq_of_not_done ((hack v hl).trans (if_pos hv))
    · have hie : v.getLsbD 0 = false := by
        rw [getLsbD_eq_decide, pow_zero, Nat.div_one, hv]
        rfl
      rw [next_of_control hl h, State.irq, hie, Bool.and_false]
    · obtain ⟨env, rfl⟩ := next_of_reset hl h
      rfl

end Sys2Proof.Machine
end

section
/-! SUPPORT. Reset and hazards (spec/70_reset_and_hazards.md): the free bytes of an abandoned output (R221), and the way
of a latched command to its step (R237). -/

namespace Sys2Proof.Machine

/-! ### The output a reset abandons -/

/-- A reset while a command is latched draws a free value for each existing byte of its output range (R221, log 5). -/
theorem abandonedCount_of_decode {s : State} {i : Instr} (hb : s.busy = true) (hd : decode s.latch = .ok i) :
    s.abandonedCount = min (s.outCount i) (s.memBytes - s.opr.dstPtr.toNat) := by
  simp [State.abandonedCount, hb, hd]

/-- Settles O52: the reset writes the drawn bytes at DST_PTR, as many as `abandonedCount_of_decode` says. -/
theorem resetAbandonsTheOutput : Obligations.ResetAbandonsTheOutput := by
  intro s rest i hl hb hd hx
  have hnone : s.resetRefusal = none := resetRefusal_none.mpr fun j r _ hj => by
    obtain rfl : i = j := Except.ok.inj (hd.symm.trans hj)
    exact hx r
  obtain ⟨r, hr, -⟩ | ⟨-, env, -, -, -, hstep⟩ := step_reset hl
  · cases hnone.symm.trans hr
  have hcount := abandonedCount_of_decode hb hd
  refine ⟨_, hstep, fun j hj hmem => ?_, fun a ha => ?_⟩
  · have hdrawn : j < s.abandonedCount := by omega
    refine ⟨Nat.add_lt_add_left hdrawn _, ?_⟩
    simp only [resetInput_mem]
    rw [Memory.read_writeBytes_inside (by simpa using hdrawn), getElem_drawBytes]
  · refine Memory.read_writeBytes_outside ?_
    rw [length_drawBytes]
    omega

/-! ### The way of a latched command to its step -/

/-- The latched word and what its command takes from the CORE's registers are the same (R237). -/
def SameCommand (s t : State) : Prop := t.latch = s.latch ∧ t.opr = s.opr ∧ t.ctr = s.ctr ∧ t.ctx = s.ctx

theorem SameCommand.refl (s : State) : SameCommand s s := ⟨rfl, rfl, rfl, rfl⟩

theorem SameCommand.trans {s t u : State} (h : SameCommand s t) (h' : SameCommand t u) : SameCommand s u := by
  obtain ⟨hlatch, hopr, hctr, hctx⟩ := h
  obtain ⟨hlatch', hopr', hctr', hctx'⟩ := h'
  exact ⟨hlatch'.trans hlatch, hopr'.trans hopr, hctr'.trans hctr, hctx'.trans hctx⟩

/-- A latched command either comes to its step now, or an event lands before it (log 1). -/
theorem engineMoves_or_lands {s : State} (hb : s.busy = true) :
    EngineMoves s ∨ ∃ e rest, Lands s e rest := by
  by_cases hlag : s.env.lag = 0
  · exact .inl ⟨hb, .inl hlag⟩
  · cases ha : s.env.agenda with
    | nil => exact .inl ⟨hb, .inr ha⟩
    | cons e rest => exact .inr ⟨e, rest, ha, .inr hlag⟩

/-- The ENGINE's turn and an event that lands exclude each other. -/
theorem Lands.not_engineMoves {s : State} {e : Event} {rest : List Event} (hl : Lands s e rest) : ¬EngineMoves s := by
  obtain ⟨hagenda, hwait⟩ := hl
  rintro ⟨hb, hlag | hnil⟩
  · exact hwait.elim (by simp [hb]) (absurd hlag)
  · cases hagenda.symm.trans hnil

/-- Only the first event of the agenda lands (R81). -/
theorem Lands.eq_of_landsNext {s : State} {e e' : Event} {rest : List Event} (hl : Lands s e rest)
    (hl' : LandsNext s e') : e' = e := by
  obtain ⟨rest', hagenda', -⟩ := hl'
  exact (List.cons.inj (hagenda'.symm.trans hl.1)).1

/-- A HOST action adds no event to the agenda: the action stays (a `wait` that polls again) or is taken off (R81). -/
theorem hostAct_agenda_subset {s t : State} {a : HostAction} (h : s.hostAct a = .next t) :
    t.env.agenda ⊆ s.env.agenda := by
  rcases hostAct_next h with ⟨_, _, v, r, -, -, rfl⟩ | ⟨_, _, -, -, rfl⟩ | ⟨x, rfl | rfl⟩
  · obtain ⟨-, -, -, -, -, henv⟩ := writeSlot_keeps s v r
    rw [advance_env, henv]
    exact List.tail_subset _
  · exact List.tail_subset _
  · exact List.Subset.refl _
  · exact List.tail_subset _

/-- A HOST action that lands while BUSY = 1 leaves the ENGINE busy with the same command, its turn one event nearer
(R29, R237, log 1). -/
theorem step_host_busy {s t : State} {a : HostAction} {rest : List Event} (hb : s.busy = true)
    (hl : Lands s (.host a) rest) (h : step s = .next t) :
    t.busy = true ∧ t.env.lag = s.env.lag - 1 ∧ t.env.agenda ⊆ s.env.agenda ∧ SameCommand s t := by
  have hengine : ¬EngineMoves s := hl.not_engineMoves
  have hreset : ¬LandsNext s .reset := fun hr => Event.noConfusion (hl.eq_of_landsNext hr)
  obtain ⟨hlag, hagenda⟩ : t.env.lag = s.env.lag - 1 ∧ t.env.agenda ⊆ s.env.agenda := by
    rw [step_lands hl, State.land] at h
    split at h
    · next u hu =>
      rw [settle_busy hb, Host.Outcome.next.injEq] at h
      subst h
      exact ⟨rfl, hostAct_agenda_subset (t := u) hu⟩
    · cases h
    · cases h
  have he := stepEffect_of_step h
  obtain ⟨hbusy, hlatch⟩ : t.busy = true ∧ t.latch = s.latch := by
    rcases he.busy_latch with ⟨hbusy, hlatch⟩ | ⟨hm, -⟩ | ⟨hidle, -⟩ | hr
    · exact ⟨hbusy.trans hb, hlatch⟩
    · exact absurd hm hengine
    · cases hb.symm.trans hidle
    · exact absurd hr hreset
  obtain ⟨hopr, hctr⟩ : t.opr = s.opr ∧ t.ctr = s.ctr := by
    rcases he.operands with hkept | ⟨hidle, -⟩ | hr
    · exact hkept
    · cases hb.symm.trans hidle
    · exact absurd hr hreset
  have hctx : t.ctx = s.ctx := by
    rcases he.completion with ⟨-, -, -, hctx⟩ | hm | hr
    · exact hctx
    · exact absurd hm hengine
    · exact absurd hr hreset
  exact ⟨hbusy, hlag, hagenda, hlatch, hopr, hctr, hctx⟩

/-- A run whose first step answers a state goes on from that state. -/
theorem run_succ_of_next {s t : State} (k : Nat) (h : step s = .next t) :
    Host.Core.run Sys2Proof.core (k + 1) s = Host.Core.run Sys2Proof.core k t := by
  have hcore : Sys2Proof.core.step s = .next t := h
  simp only [Host.Core.run, hcore]

/-- A run whose first step is refused is refused. -/
theorem run_one_of_refused {s : State} {r : Refusal} (h : step s = .refused r) :
    Host.Core.run Sys2Proof.core 1 s = Host.Outcome.refused r := by
  have hcore : Sys2Proof.core.step s = .refused r := h
  simp only [Host.Core.run, hcore]
  rfl

/-- Settles O7, by induction on the lag: `step_host_busy` brings the command one event nearer to its step. -/
theorem busyCommandReachesItsStep : Obligations.BusyCommandReachesItsStep := by
  intro s hb hagenda
  induction hn : s.env.lag generalizing s with
  | zero => exact ⟨0, le_rfl, .inl ⟨s, rfl, ⟨hb, .inl hn⟩, SameCommand.refl s⟩⟩
  | succ n ih =>
    rcases engineMoves_or_lands hb with hm | ⟨e, rest, hl⟩
    · exact ⟨0, Nat.zero_le _, .inl ⟨s, rfl, hm, SameCommand.refl s⟩⟩
    cases e with
    | reset => exact absurd rfl (hagenda .reset (hl.1 ▸ List.mem_cons_self))
    | host a =>
      cases hstep : step s with
      | fault r => cases r
      | refused r => exact ⟨1, Nat.le_add_left 1 n, .inr ⟨r, run_one_of_refused hstep⟩⟩
      | next t =>
        obtain ⟨hbusy, hlag, hsub, hsame⟩ := step_host_busy hb hl hstep
        obtain ⟨k, hk, hend⟩ := ih t hbusy (fun e he => hagenda e (hsub he)) (by omega)
        refine ⟨k + 1, Nat.succ_le_succ hk, ?_⟩
        rw [run_succ_of_next k hstep]
        exact hend.imp_left fun ⟨u, hrun, hm, hsame'⟩ => ⟨u, hrun, hm, hsame.trans hsame'⟩

end Sys2Proof.Machine
end
